-- ==== Sys2Proof/Word.lean ====
section
/-! DEFINITION. The fixed-width words of the block: one line, one nibble, one byte (spec R7, R8). -/

namespace Sys2Proof

/-- The width of a one-line register (`RS`, `EN`, `BUZ`, `TRIG`, the mode of a byte): R7. -/
abbrev Bit := BitVec 1

/-- The width of the data lines `DB[3:0]`: half a byte (R7, R13 "Nibble"). -/
abbrev Nibble := BitVec 4

/-- A transmitted byte, an operand byte of a request, a character code (R7). -/
abbrev Byte := BitVec 8

end Sys2Proof
end

