-- ==== Sys2Proof/Config.lean ====
section
/-! DEFINITION. The implementation parameters of spec R6 and the values the spec leaves open. -/

namespace Sys2Proof

/-- The values `W`, the addressable columns per row, can have (R6): up to 64, so that by R62 the addresses of row
1, from 0x80, end before those of row 2, from 0xC0, and those end with the byte 0xFF. Log entry 16. -/
abbrev Width := Fin 65

/-- The value of `W` in the reference usage and in every vector of the spec (R6, D13). `W` itself is the field
`dev.w` of the state, fixed for a run. -/
def Config.W : Width := 16

/-- `ROWS`: the display has two rows (R6). -/
def Config.ROWS : Nat := 2

/-- `HOLD`: enable-high hold, in time units (R6). -/
def Config.HOLD : Nat := 1

/-- `SETTLE`: the wait after each byte, in time units (R6). -/
def Config.SETTLE : Nat := 2

/-- `POWERON`: the power-on settle, in time units (R6). -/
def Config.POWERON : Nat := 20

/-- `CLEAR_SETTLE`: the extra wait after clear-display, in time units (R6). -/
def Config.CLEAR_SETTLE : Nat := 2

/-- `BUZZ_HOLD`: how long the buzzer is active, in seconds (R6). -/
def Config.BUZZ_HOLD : Nat := 5

/-- `PACE`: the pacing delay of a monitor iteration, in seconds (R6). -/
def Config.PACE : Byte := 1

/-- `THRESHOLD`: the hot/alarm boundary in degrees C, the rational 80 (R6). -/
def Config.THRESHOLD : Nat := 80

/-- `SCALE_NUM`: numerator of the transform `61/125` (R6, R242). -/
def Config.SCALE_NUM : Nat := 61

/-- `SCALE_DEN`: denominator of the transform `61/125` (R6, R242). -/
def Config.SCALE_DEN : Nat := 125

/-- `RAW_MAX`: the largest raw sample (R6). -/
def Config.RAW_MAX : Nat := 1023

/-- `BASE_ROW1`: the row 1 base command (R6, R107). -/
def Config.BASE_ROW1 : Byte := 0x80

/-- `BASE_ROWX`: the base command of any other row value (R6, R107). -/
def Config.BASE_ROWX : Byte := 0xC0

/-- `FMT_TIE` (R6, R247; OPEN): whether an exact tie between `c` and `c + 1` hundredths is written as
`c + 1`. No body: nothing can be proved about it. No raw sample reaches it (R242). Log entry 8. -/
opaque Config.fmtTieUp : Nat → Bool

/-- The length of one time unit in seconds before the assumption `S_GE_TU` is applied (R6; OPEN).
No body. Log entry 9. -/
opaque Config.tuOpen : Rat

/-- `TU`: the length of one time unit in seconds (R6), any rational from 0 to 1/24: the upper end is the
spec's assumption `S_GE_TU` (D6), one second is at least 24 time units. Log entry 9. -/
def Config.TU : Rat := max 0 (min Config.tuOpen (1 / 24))

end Sys2Proof
end

