-- ==== Sys2Proof/Machine/Operands.lean ====
section
/-! DEFINITION. Operand forms: the halves of a byte, the cursor command byte, the addresses of the display
cells, and which command bytes the spec lists (R8, R62, R63, R104 to R107). -/

namespace Sys2Proof.Machine

/-- `b[7:4]`, the nibble that is sent first (R8, R105). -/
def hiNibble (b : Byte) : Nibble := b.extractLsb' 4 4

/-- `b[3:0]`, the nibble that is sent second (R8, R105). -/
def loNibble (b : Byte) : Nibble := b.extractLsb' 0 4

/-- `{h, l} = 16 * h + l`: the byte a receiver rebuilds from two nibbles (R8, R104). -/
def joinNibbles (h l : Nibble) : Byte := h ++ l

/-- "row 1 → 0x80, any other row value → 0xC0" (R107). -/
def cursorBase (row : Byte) : Byte := if row = 1 then Config.BASE_ROW1 else Config.BASE_ROWX

/-- The cursor command byte `(base + col - 1) mod 256` (R107). -/
def cursorByte (row col : Byte) : Byte := cursorBase row + col - 1

/-- `1 <= col and col <= W`, the columns for which the device is defined (R156, R157). -/
def columnInRange (w : Width) (col : Byte) : Bool := decide (1 ≤ col.toNat ∧ col.toNat ≤ w.val)

/-- A row 1 cursor command, `0x80` to `0x80 + W - 1` (R63, R186). -/
def isRow1Cursor (w : Width) (b : Byte) : Bool :=
  decide (Config.BASE_ROW1.toNat ≤ b.toNat ∧ b.toNat < Config.BASE_ROW1.toNat + w.val)

/-- A row 2 cursor command, `0xC0` to `0xC0 + W - 1` (R63, R186). -/
def isRow2Cursor (w : Width) (b : Byte) : Bool :=
  decide (Config.BASE_ROWX.toNat ≤ b.toNat ∧ b.toNat < Config.BASE_ROWX.toNat + w.val)

/-- The column offset of a row 1 cursor command, `b - 0x80` (R192). -/
def row1Offset (b : Byte) : Nat := b.toNat - Config.BASE_ROW1.toNat

/-- The column offset of a row 2 cursor command, `b - 0xC0` (R193). -/
def row2Offset (b : Byte) : Nat := b.toNat - Config.BASE_ROWX.toNat

/-- The command bytes to which the spec gives a meaning (R63, R106); for every other byte R194 holds. -/
def isListedCommand (w : Width) (b : Byte) : Bool :=
  decide (b = 0x01) || decide (b = 0x02) || decide (b = 0x06) || decide (b = 0x0C) || decide (b = 0x28)
    || isRow1Cursor w b || isRow2Cursor w b

/-- The opcode bytes that are not reserved (R99, R102). -/
def isRequestOpcode (op : Byte) : Bool :=
  decide (op = 0x10) || decide (op = 0x11) || decide (op = 0x12) || decide (op = 0x13) || decide (op = 0x14)
    || decide (op = 0x20) || decide (op = 0x30)

/-- Byte `k` of a number whose bits are counted from the first byte's bit 0: bits `8 k + 7` to `8 k`. -/
def byteAt (w k : Nat) : Byte := BitVec.ofNat 8 (w / 2 ^ (8 * k))

/-- The first `n` bytes of a number, lowest first: the order in which the request stream holds them. -/
def bytesOf (n w : Nat) : List Byte := (List.range n).map (byteAt w)

end Sys2Proof.Machine
end

