-- ==== Sys2Proof/Machine/State.lean ====
section
/-! DEFINITION. The state of the block: driver registers, sequencer, display device (spec 10_state.md), the
ways a run can stop, and the state after reset (R45). Plain data throughout. -/

namespace Sys2Proof.Machine

/-- The events of the trace (R10). `t k` is a delay of at least `k` time units, `s k` of at least `k`
seconds. -/
inductive Event where
  | rs (v : Bit)
  | en (v : Bit)
  | db (n : Nibble)
  | buz (v : Bit)
  | t (k : Nat)
  | s (k : Nat)
deriving DecidableEq, Repr

/-- `SEQ`, the sequencer status (R27). -/
inductive Seq where
  | ready
  | ended
  | refused
deriving DecidableEq, Repr

/-- The reason that goes with `SEQ <- REFUSED` (R46, R99, R100, R101). -/
inductive RefusedReason where
  | reservedOpcode (op : Byte)
  | reservedAlarmOperand (v : Byte)
  | reservedDelayUnit (u : Byte)
  | truncatedRequest (rp : Nat)
deriving DecidableEq, Repr

/-- Which nibble of a byte the device expects next (R35). -/
inductive Phase where
  | hi
  | lo
deriving DecidableEq, Repr

/-- A row of the display (R37, R61). -/
inductive Row where
  | row1
  | row2
deriving DecidableEq, Repr

/-- A known cursor position: a row and a 1-based column from 1 to `W + 1` (R38). -/
structure Cursor where
  row : Row
  col : Nat
deriving DecidableEq, Repr

/-- The display cell space (R60, R61): address and byte of every cell whose content is known, the addresses
strictly rising. An unlisted address reads as `unknown`, the reset content of every cell (R37). -/
abbrev Memory := List Host.Cell

/-- `dev`, the display device as reference receiver (R31). -/
structure Dev where
  /-- `W`, the addressable columns per row: the configuration field of R6 and D13, fixed for a run. No operation
  writes it. -/
  w : Width
  /-- time units until the next enable pulse may start (R32) -/
  wait : Nat
  /-- time units `EN` must still stay high (R33) -/
  hold : Nat
  /-- the value of `EN` the device saw last (R47) -/
  en : Bit
  /-- the device pairs nibbles into bytes (R34) -/
  if4 : Bool
  /-- the nibble expected next (R35) -/
  ph : Phase
  /-- the high nibble latched (R35) -/
  hn : Nibble
  /-- the mode line sampled with the high nibble (R35) -/
  hrs : Bit
  /-- command 0x28 has been received (R36) -/
  lines2 : Bool
  /-- command 0x0C has been received (R36) -/
  on : Bool
  /-- command 0x06 has been received (R36) -/
  inc : Bool
  /-- the character cells (R37) -/
  cell : Memory
  /-- the cursor, `none` being `unknown` (R38) -/
  cur : Option Cursor
  /-- the sticky mark: the device's behaviour is no longer defined (R39) -/
  undef : Bool
deriving DecidableEq, Repr

/-- The machine. -/
structure State where
  /-- `RS`, the mode line (R20) -/
  rs : Bit
  /-- `EN`, the enable line (R21) -/
  en : Bit
  /-- `DB`, the four data lines (R22) -/
  db : Nibble
  /-- `BUZ`, the buzzer output (R23) -/
  buz : Bit
  /-- `TRIG`, the alarm latch (R24) -/
  trig : Bit
  /-- `CURBYTE`, the byte under transmission (R25) -/
  curByte : Byte
  /-- `CURMODE`, the mode of the byte under transmission (R25) -/
  curMode : Bit
  /-- `REQ`, the request stream the host supplied (R26) -/
  req : List Byte
  /-- `SEQ`, the sequencer status (R27) -/
  seq : Seq
  /-- `rp`, the request pointer (R28) -/
  rp : Nat
  /-- `ms`, the events of the request at `rp` already emitted (R29) -/
  ms : Nat
  /-- `TR`, the trace, oldest event first (R30) -/
  tr : List Event
  /-- `refused`, the mark with its reason (R46) -/
  refused : Option RefusedReason
  /-- the display device (R31) -/
  dev : Dev
  /-- The MODEL's own field (log entry 3): a whole byte put at the device from outside the block, with the
  mode line it came with. No step of the machine fills it. -/
  port : Option (Bit × Byte)
deriving DecidableEq, Repr

/-- The block raises no exception and has no fault (R270): the type is empty. -/
inductive Fault where
deriving DecidableEq, Repr

/-- Why a step does not answer a next state. -/
inductive Refusal where
  /-- An operation without a meaning in `exec`. Safe: nothing is claimed of it. No arm uses it. -/
  | notModelled (mnemonic : String)
  /-- Raised by `fetch` when `SEQ = REFUSED`: no further request is performed (R27, R99). Safe: the spec gives
  such a run no final state (R314). -/
  | requestRefused (reason : Option RefusedReason)
deriving DecidableEq, Repr

/-- The device at power-on (R45), with `w` columns per row. `hn` and `hrs` are unspecified there (log entry 1). -/
def Dev.powerOn (w : Width) : Dev where
  w := w
  wait := Config.POWERON
  hold := 0
  en := 0
  if4 := false
  ph := .hi
  hn := 0
  hrs := 0
  lines2 := false
  on := false
  inc := false
  cell := []
  cur := none
  undef := false

/-- The device at power-on in the reference usage, `W` = 16 (R6, R45). -/
def Dev.reset : Dev := Dev.powerOn Config.W

/-- The machine at power-on (R45, R300, R302), the host's stream still empty. `CURBYTE` and `CURMODE` are
unspecified there (log entry 1). -/
def State.reset : State where
  rs := 0
  en := 0
  db := 0
  buz := 0
  trig := 0
  curByte := 0
  curMode := 0
  req := []
  seq := .ready
  rp := 0
  ms := 0
  tr := []
  refused := none
  dev := Dev.reset
  port := none

/-- The machine at power-on with a display of `w` columns per row (R6, R45, D13). -/
def State.powerOn (w : Width) : State := { State.reset with dev := Dev.powerOn w }

end Sys2Proof.Machine
end

