-- ==== Sys2Proof/Machine/Memory.lean ====
section
/-! DEFINITION. The display cell space: `MemRead`, `MemWrite`, the addresses of the cells and the canonical
form (R60 to R62, R9). -/

namespace Sys2Proof.Machine

/-- The base address of a row (R62). -/
def rowBase : Row → Nat
  | .row1 => Config.BASE_ROW1.toNat
  | .row2 => Config.BASE_ROWX.toNat

/-- `addr(row, col) = base + (col - 1)`, for a column from 1 (R62). -/
def cellAddr (row : Row) (col : Nat) : Nat := rowBase row + (col - 1)

/-- The cell with a given address, of a display with `w` columns per row; "every other byte is the address of no cell" (R62). -/
def cellOf (w : Width) (a : Nat) : Option (Row × Nat) :=
  if Config.BASE_ROW1.toNat ≤ a ∧ a < Config.BASE_ROW1.toNat + w.val then
    some (.row1, a - Config.BASE_ROW1.toNat + 1)
  else if Config.BASE_ROWX.toNat ≤ a ∧ a < Config.BASE_ROWX.toNat + w.val then
    some (.row2, a - Config.BASE_ROWX.toNat + 1)
  else none

/-- `MemRead(a, 1)`: the byte at an address, `none` where the cell is `unknown` or there is no cell. -/
def Memory.read (a : Nat) : Memory → Option Byte
  | [] => none
  | (b, w) :: m => if a = b then some w else Memory.read a m

/-- `MemWrite(a, 1, v)`: the byte goes to its place in the rising list. -/
def Memory.write (a : Nat) (v : Byte) : Memory → Memory
  | [] => [(a, v)]
  | (b, w) :: m =>
    if a < b then (a, v) :: (b, w) :: m
    else if a = b then (a, v) :: m
    else (b, w) :: Memory.write a v m

/-- The addresses of all cells, row 1 then row 2 (R62). -/
def cellAddresses (w : Width) : List Nat :=
  (List.range w.val).map (Config.BASE_ROW1.toNat + ·)
    ++ (List.range w.val).map (Config.BASE_ROWX.toNat + ·)

/-- The cell space after clear-display: every cell holds the space code 0x20 (R187). -/
def blankCells (w : Width) : Memory := (cellAddresses w).map fun a => (a, 0x20)

/-- The canonical form: the addresses strictly rise. An entry always holds a byte and an unlisted address
reads as `unknown`, so no entry equals what an unlisted address reads as. -/
def Memory.wf : Memory → Bool
  | [] => true
  | (_, _) :: [] => true
  | (a, _) :: (b, w) :: m => decide (a < b) && Memory.wf ((b, w) :: m)

/-- Every listed address is the address of a cell (R62). -/
def Memory.onCells (w : Width) (m : Memory) : Bool := m.all fun c => (cellOf w c.1).isSome

/-- The content of cell `(row, col)`, `none` for `unknown` (R37). -/
def Dev.cellAt (row : Row) (col : Nat) (d : Dev) : Option Byte := Memory.read (cellAddr row col) d.cell

end Sys2Proof.Machine
end

