-- ==== Sys2Proof/Machine/Device.lean ====
section
/-! DEFINITION. The display device as reference receiver: how each event, each latched pair and each received
byte changes `dev` (42_display_device.md, R180 to R196). The rules go on applying after `dev.undef` is set
(R197 allows it; log entry 4). -/

namespace Sys2Proof.Machine

/-- `dev.undef <- true` (R39). -/
def Dev.markUndef (d : Dev) : Dev := { d with undef := true }

/-! ## The command bytes -/

/-- R187: every cell a space, the cursor unknown, and the longer settle. -/
def Dev.clear (d : Dev) : Dev :=
  { d with cell := blankCells d.w, cur := none, wait := Config.SETTLE + Config.CLEAR_SETTLE }

/-- R188: command 0x02 received as a whole byte. -/
def Dev.force4bit (d : Dev) : Dev := { d with if4 := true, cur := none }

/-- R189. -/
def Dev.autoInc (d : Dev) : Dev := { d with inc := true }

/-- R190. -/
def Dev.displayOn (d : Dev) : Dev := { d with on := true }

/-- R191. -/
def Dev.twoLines (d : Dev) : Dev := { d with lines2 := true }

/-- R192: the cursor to row 1, column `off + 1`. -/
def Dev.cursorRow1 (off : Nat) (d : Dev) : Dev := { d with cur := some ⟨.row1, off + 1⟩ }

/-- R193: the cursor to row 2, column `off + 1`, on a device configured for two lines. -/
def Dev.cursorRow2 (off : Nat) (d : Dev) : Dev :=
  if d.lines2 then { d with cur := some ⟨.row2, off + 1⟩ } else d.markUndef

/-- R186: `dev.wait <- SETTLE`, which every received byte does before its own effect (R195 too). -/
def Dev.settle (d : Dev) : Dev := { d with wait := Config.SETTLE }

/-- R186: receiving a command byte. -/
def Dev.receiveCommand (b : Byte) (d : Dev) : Dev :=
  if b = 0x01 then d.settle.clear
  else if b = 0x02 then d.settle.force4bit
  else if b = 0x06 then d.settle.autoInc
  else if b = 0x0C then d.settle.displayOn
  else if b = 0x28 then d.settle.twoLines
  else if isRow1Cursor d.w b then d.settle.cursorRow1 (row1Offset b)
  else if isRow2Cursor d.w b then d.settle.cursorRow2 (row2Offset b)
  else d.settle.markUndef

/-! ## Character bytes -/

/-- R195 after the settle: the byte goes to the cell under the cursor and the cursor moves one column to the
right; with the cursor unknown or past column `W` the device is undefined. (Columns start at 1, R38; a column
0 occurs in no run.) -/
def Dev.putChar (b : Byte) (d : Dev) : Dev :=
  match d.cur with
  | some c =>
    if 1 ≤ c.col ∧ c.col ≤ d.w.val then
      { d with
        cell := Memory.write (cellAddr c.row c.col) b d.cell
        cur := if d.inc then some ⟨c.row, c.col + 1⟩ else none }
    else d.markUndef
  | none => d.markUndef

/-- R195: receiving a character byte. -/
def Dev.receiveChar (b : Byte) (d : Dev) : Dev := d.settle.putChar b

/-- `receive(rs, b)` (R185). -/
def Dev.receive (rs : Bit) (b : Byte) (d : Dev) : Dev :=
  if rs = 0 then d.receiveCommand b else d.receiveChar b

/-! ## From pulses to bytes -/

/-- R184: a pair latched before 4-bit mode. -/
def Dev.takePairBefore4bit (rs : Bit) (n : Nibble) (d : Dev) : Dev :=
  if rs = 0 ∧ n = 0 then d
  else if rs = 0 ∧ n = 2 then { d with if4 := true, ph := .hi, wait := Config.SETTLE }
  else d.markUndef

/-- R185: a pair latched in 4-bit mode. -/
def Dev.takePairIn4bit (rs : Bit) (n : Nibble) (d : Dev) : Dev :=
  match d.ph with
  | .hi => { d with hn := n, hrs := rs, ph := .lo }
  | .lo =>
    if rs = d.hrs then Dev.receive rs (joinNibbles d.hn n) { d with ph := .hi }
    else Dev.markUndef { d with ph := .hi }

/-- R183: the latched pair goes by R184 or R185. -/
def Dev.takePair (rs : Bit) (n : Nibble) (d : Dev) : Dev :=
  if d.if4 then d.takePairIn4bit rs n else d.takePairBefore4bit rs n

/-! ## Time and edges -/

/-- R181: `T(k)`. -/
def Dev.delayTu (k : Nat) (d : Dev) : Dev := { d with wait := d.wait - k, hold := d.hold - k }

/-- R181: `S(k)`, by the assumption `S_GE_TU`. -/
def Dev.delayS (k : Nat) (d : Dev) : Dev := if k = 0 then d else { d with wait := 0, hold := 0 }

/-- R182: `EN=1`. -/
def Dev.rise (d : Dev) : Dev :=
  if d.en = 0 then
    { d with undef := d.undef || decide (0 < d.wait), hold := Config.HOLD, en := 1 }
  else d

/-- R183: `EN=0`, with the values `RS` and `DB` have at this event. -/
def Dev.fall (rs : Bit) (n : Nibble) (d : Dev) : Dev :=
  if d.en = 0 then d
  else Dev.takePair rs n { d with undef := d.undef || decide (0 < d.hold), en := 0 }

/-- What an event of the block does to the device, `rs` and `n` being the registers `RS` and `DB` at the
event (R181 to R183, R196). -/
def Dev.react (rs : Bit) (n : Nibble) (e : Event) (d : Dev) : Dev :=
  match e with
  | .rs _ => d
  | .db _ => d
  | .buz _ => d
  | .en v => if v = 0 then d.fall rs n else d.rise
  | .t k => d.delayTu k
  | .s k => d.delayS k

/-! ## A whole byte at the device -/

/-- One enable pulse as the device sees it, with a pair held on the lines (R103, R130, R182, R183). -/
def Dev.pulsed (rs : Bit) (n : Nibble) (d : Dev) : Dev := Dev.fall rs n (Dev.delayTu Config.HOLD d.rise)

/-- A byte sent by `SENDBYTE` as the device sees it: two pulses, the high nibble first, then the settle delay
(R104, R132). -/
def Dev.byteSent (rs : Bit) (b : Byte) (d : Dev) : Dev :=
  ((d.pulsed rs (hiNibble b)).pulsed rs (loNibble b)).delayTu Config.SETTLE

/-- A byte put at the device as one of the device rows of the opcode table: a device in 4-bit mode receives
it whole (R186, R195: the settle, then the row's own effect); a device not yet in 4-bit mode "sees the two
pulses one by one" (R188, R184; log entry 2). -/
def Dev.deliver (rs : Bit) (b : Byte) (effect : Dev → Dev) (d : Dev) : Dev :=
  if d.if4 then effect d.settle else (d.pulsed rs (hiNibble b)).pulsed rs (loNibble b)

end Sys2Proof.Machine
end

