-- ==== Sys2Proof/Machine/Ops.lean ====
section
/-! DEFINITION. The named operations of the sequencer: register writes and delays with their events (R9, R30),
the micro-operations a request is made of, performing a request (R28, R29), and the refusal of a request
(R99), which is all the block has in the place of an exception (R270, R276). -/

namespace Sys2Proof.Machine

/-- `RS <- v`: the register, and the event `RS=v` (R20, R30, R196). -/
def writeRs (v : Bit) (s : State) : State := { s with rs := v, tr := s.tr ++ [.rs v] }

/-- `DB <- n`: the register, and the event `DB=n` (R22, R30, R196). -/
def writeDb (n : Nibble) (s : State) : State := { s with db := n, tr := s.tr ++ [.db n] }

/-- `BUZ <- v`: the register, and the event `BUZ=v` (R23, R30, R196). -/
def writeBuz (v : Bit) (s : State) : State := { s with buz := v, tr := s.tr ++ [.buz v] }

/-- `EN <- v`: the register, the event `EN=v`, and the device's edge (R21, R30, R182, R183). -/
def writeEn (v : Bit) (s : State) : State :=
  { s with en := v, tr := s.tr ++ [.en v], dev := s.dev.react s.rs s.db (.en v) }

/-- `delay_tu(k)`: the event `T(k)` (R9, R181, R241). -/
def delayTu (k : Nat) (s : State) : State := { s with tr := s.tr ++ [.t k], dev := s.dev.delayTu k }

/-- `delay_s(k)`: the event `S(k)` (R9, R181, R241). -/
def delayS (k : Nat) (s : State) : State := { s with tr := s.tr ++ [.s k], dev := s.dev.delayS k }

/-- Performing one event. -/
def emit (e : Event) (s : State) : State :=
  match e with
  | .rs v => writeRs v s
  | .en v => writeEn v s
  | .db n => writeDb n s
  | .buz v => writeBuz v s
  | .t k => delayTu k s
  | .s k => delayS k s

/-- The micro-operations of a request: an event, or a write that is not a line of the block and so appends
nothing to the trace (R30). -/
inductive Action where
  | ev (e : Event)
  /-- `CURMODE <- m ; CURBYTE <- b` (R132) -/
  | latch (m : Bit) (b : Byte)
  /-- `TRIG <- v` (R222) -/
  | setTrig (v : Bit)
  /-- `dev.undef <- true`, the model mark of `CUR` (R156, R157) -/
  | markUndef
deriving DecidableEq, Repr

/-- One micro-operation. -/
def act (a : Action) (s : State) : State :=
  match a with
  | .ev e => emit e s
  | .latch m b => { s with curMode := m, curByte := b }
  | .setTrig v => { s with trig := v }
  | .markUndef => { s with dev := s.dev.markUndef }

/-- Micro-operations in order. -/
def runActions : List Action → State → State
  | [], s => s
  | a :: as, s => runActions as (act a s)

/-- What is left of a request's micro-operations after its first `k` events (R29). -/
def resume : Nat → List Action → List Action
  | 0, as => as
  | _ + 1, [] => []
  | k + 1, .ev _ :: as => resume k as
  | k + 1, .latch _ _ :: as => resume (k + 1) as
  | k + 1, .setTrig _ :: as => resume (k + 1) as
  | k + 1, .markUndef :: as => resume (k + 1) as

/-- The event list of a list of micro-operations. -/
def eventsOf : List Action → List Event
  | [] => []
  | .ev e :: as => e :: eventsOf as
  | .latch _ _ :: as => eventsOf as
  | .setTrig _ :: as => eventsOf as
  | .markUndef :: as => eventsOf as

/-- The end of a request: `rp <- rp + len`, and no event of the next request emitted yet (R28, R29). -/
def finish (len : Nat) (s : State) : State := { s with rp := s.rp + len, ms := 0 }

/-- Performing the request at `rp` from where it stands (`ms = 0`: from its start) to its end. -/
def perform (len : Nat) (as : List Action) (s : State) : State :=
  finish len (runActions (resume s.ms as) s)

/-- A request is refused: `SEQ <- REFUSED`, `refused <- reason`, nothing else changes (R99 to R101). -/
def refuse (reason : RefusedReason) (s : State) : State := { s with seq := .refused, refused := some reason }

/-- The end of a finite stream: `SEQ <- ENDED` (R314). -/
def endRun (s : State) : State := { s with seq := .ended }

end Sys2Proof.Machine
end

