-- ==== Sys2Proof/Machine/DeviceBytes.lean ====
section
/-! DEFINITION. The rows of the opcode table that are bytes as the display device receives them (R187 to R195).
They change the device and nothing of the driver; `Dev.deliver` is what they share. -/

namespace Sys2Proof.Machine

/-- A byte at the device changes `dev` only (R196, R64). -/
def atDevice (f : Dev → Dev) (s : State) : State := { s with dev := f s.dev }

/-- `D_CLEAR` (R187). -/
def execDClear (s : State) : Host.Outcome State Fault Refusal :=
  .next (atDevice (Dev.deliver 0 0x01 Dev.clear) s)

/-- `D_4BIT` (R188; R184 before 4-bit mode). -/
def execD4bit (s : State) : Host.Outcome State Fault Refusal :=
  .next (atDevice (Dev.deliver 0 0x02 Dev.force4bit) s)

/-- `D_AUTOINC` (R189). -/
def execDAutoinc (s : State) : Host.Outcome State Fault Refusal :=
  .next (atDevice (Dev.deliver 0 0x06 Dev.autoInc) s)

/-- `D_ON_NOCURSOR` (R190). -/
def execDOnNocursor (s : State) : Host.Outcome State Fault Refusal :=
  .next (atDevice (Dev.deliver 0 0x0C Dev.displayOn) s)

/-- `D_2LINE` (R191). -/
def execD2line (s : State) : Host.Outcome State Fault Refusal :=
  .next (atDevice (Dev.deliver 0 0x28 Dev.twoLines) s)

/-- `D_CURSOR_ROW1` (R192). -/
def execDCursorRow1 (off : BitVec 6) (s : State) : Host.Outcome State Fault Refusal :=
  .next (atDevice (Dev.deliver 0 (Config.BASE_ROW1 + off.zeroExtend 8) (Dev.cursorRow1 off.toNat)) s)

/-- `D_CURSOR_ROW2` (R193). -/
def execDCursorRow2 (off : BitVec 6) (s : State) : Host.Outcome State Fault Refusal :=
  .next (atDevice (Dev.deliver 0 (Config.BASE_ROWX + off.zeroExtend 8) (Dev.cursorRow2 off.toNat)) s)

/-- `D_OTHER` (R194). -/
def execDOther (b : Byte) (s : State) : Host.Outcome State Fault Refusal :=
  .next (atDevice (Dev.deliver 0 b Dev.markUndef) s)

/-- `D_CHAR` (R195). -/
def execDChar (b : Byte) (s : State) : Host.Outcome State Fault Refusal :=
  .next (atDevice (Dev.deliver 1 b (Dev.putChar b)) s)

end Sys2Proof.Machine
end

