-- ==== Sys2Proof/Machine/Flags.lean ====
section
/-! DEFINITION. The one status flag, `TRIG`, and the comparison that drives it (R40, R220 to R222, R243). -/

namespace Sys2Proof.Machine

/-- A temperature as an exact fraction `num / den` of degrees C: the spec computes the transform exactly
(R242). The denominator is positive in every use. -/
structure Temperature where
  num : Nat
  den : Nat
deriving DecidableEq, Repr

/-- `over_t(t) = 1` if `t > 80.0`, else 0; the comparison is strict (R243). -/
def overT (t : Temperature) : Bit := if Config.THRESHOLD * t.den < t.num then 1 else 0

/-- Whether `ALM v` makes the transition `Idle` to `Triggered`, the only one that pulses the buzzer
(R221, R222). -/
def alarmStarts (trig v : Bit) : Bool := decide (v = 1) && decide (trig = 0)

end Sys2Proof.Machine
end

