-- ==== Sys2Proof/Machine/Alarm.lean ====
section
/-! DEFINITION. The alarm latch: `ALM` (R220 to R225). -/

namespace Sys2Proof.Machine

/-- R222, by the value the latch has when the request starts: the pulse and then the latch, the silent reset,
or nothing. -/
def almActions (v trig : Bit) : List Action :=
  if alarmStarts trig v then [.ev (.buz 1), .ev (.s Config.BUZZ_HOLD), .ev (.buz 0), .setTrig 1]
  else if v = 0 then [.setTrig 0]
  else []

/-- The state after `ALM v` (R222). -/
def afterAlm (v : Bit) (s : State) : State := perform 2 (almActions v s.trig) s

/-- `ALM v` (R222). -/
def execAlm (v : Bit) (s : State) : Host.Outcome State Fault Refusal := .next (afterAlm v s)

end Sys2Proof.Machine
end

