-- ==== Sys2Proof/Syntax.lean ====
section
/-! DEFINITION. The operations of the block: one constructor per row of the spec's opcode table. -/

namespace Sys2Proof

/-- The unit operand `u` of `DLY` (R98): 0 is time units, 1 is seconds. -/
inductive DelayUnit where
  | timeUnits
  | seconds
deriving DecidableEq, Repr

/-- The rows of the opcode table. The first seven are requests, the bytes a host puts in the request
stream (R92 to R98); `mon` is the assembler's pseudo-operation (R111); the `d…` rows are bytes as the
display device receives them (R106, R104), a column offset being 0 to `W - 1`, which is four bits of the byte for
`W` = 16 and six at the most; the last two are the internal micro-operations (R130, R132). -/
inductive Instr where
  | init
  | cmd (b : Byte)
  | chr (b : Byte)
  | cur (row col : Byte)
  | str (text : List Byte)
  | alm (v : Bit)
  | dly (u : DelayUnit) (k : Byte)
  | mon (r : BitVec 10)
  | dClear
  | d4bit
  | dAutoinc
  | dOnNocursor
  | d2line
  | dCursorRow1 (off : BitVec 6)
  | dCursorRow2 (off : BitVec 6)
  | dOther (b : Byte)
  | dChar (b : Byte)
  | pulse
  | sendbyte (m : Bit) (b : Byte)
deriving DecidableEq, Repr

/-- How a row of the opcode table is encoded (the table's column `format`). -/
inductive Format where
  /-- bytes of the request stream -/
  | req
  /-- no encoding: replaced by the assembler -/
  | pseudo
  /-- one byte at the device with the mode line at 0 -/
  | dcmd
  /-- one byte at the device with the mode line at 1 -/
  | ddata
  /-- no encoding: reached only through requests -/
  | internal
deriving DecidableEq, Repr

/-- The format of each row. -/
def Instr.format : Instr → Format
  | .init => .req
  | .cmd _ => .req
  | .chr _ => .req
  | .cur _ _ => .req
  | .str _ => .req
  | .alm _ => .req
  | .dly _ _ => .req
  | .mon _ => .pseudo
  | .dClear => .dcmd
  | .d4bit => .dcmd
  | .dAutoinc => .dcmd
  | .dOnNocursor => .dcmd
  | .d2line => .dcmd
  | .dCursorRow1 _ => .dcmd
  | .dCursorRow2 _ => .dcmd
  | .dOther _ => .dcmd
  | .dChar _ => .ddata
  | .pulse => .internal
  | .sendbyte _ _ => .internal

end Sys2Proof
end

