-- ==== Sys2Proof/Machine/Delay.lean ====
section
/-! DEFINITION. The blocking delay: `DLY` (R240, R241). -/

namespace Sys2Proof.Machine

/-- R240: one event, also when the count is 0. -/
def dlyActions (u : DelayUnit) (k : Byte) : List Action :=
  match u with
  | .timeUnits => [.ev (.t k.toNat)]
  | .seconds => [.ev (.s k.toNat)]

/-- The state after `DLY u, k` (R240). -/
def afterDly (u : DelayUnit) (k : Byte) (s : State) : State := perform 3 (dlyActions u k) s

/-- `DLY u, k` (R240). -/
def execDly (u : DelayUnit) (k : Byte) (s : State) : Host.Outcome State Fault Refusal :=
  .next (afterDly u k s)

end Sys2Proof.Machine
end

