-- ==== Sys2Proof/Machine/Bus.lean ====
section
/-! DEFINITION. The internal micro-operations `PULSE` and `SENDBYTE` (R130 to R135). -/

namespace Sys2Proof.Machine

/-- R130: `EN <- 1`, `delay_tu(HOLD)`, `EN <- 0`. -/
def pulseActions : List Action := [.ev (.en 1), .ev (.t Config.HOLD), .ev (.en 0)]

/-- R132: the six steps of the byte state machine. -/
def sendByteActions (m : Bit) (b : Byte) : List Action :=
  [Action.latch m b, Action.ev (.rs m), Action.ev (.db (hiNibble b))] ++ pulseActions
    ++ [Action.ev (.db (loNibble b))] ++ pulseActions ++ [Action.ev (.t Config.SETTLE)]

/-- `PULSE` (R130). It is no request: `rp` and `ms` stay. -/
def execPulse (s : State) : Host.Outcome State Fault Refusal := .next (runActions pulseActions s)

/-- `SENDBYTE(m, b)` (R132). It is no request: `rp` and `ms` stay. -/
def execSendbyte (m : Bit) (b : Byte) (s : State) : Host.Outcome State Fault Refusal :=
  .next (runActions (sendByteActions m b) s)

end Sys2Proof.Machine
end

