-- ==== Sys2Proof/Machine/Display.lean ====
section
/-! DEFINITION. The requests of the display protocol driver: `INIT`, `CMD`, `CHR`, `CUR`, `STR` (R150 to R160). -/

namespace Sys2Proof.Machine

/-- R150: the fixed initialization sequence; step 2 is a full command send of 0x02 (conflict C1). -/
def initActions : List Action :=
  [Action.ev (.t Config.POWERON)] ++ sendByteActions 0 0x02 ++ sendByteActions 0 0x28 ++ sendByteActions 0 0x0C
    ++ sendByteActions 0 0x06 ++ sendByteActions 0 0x01 ++ [Action.ev (.t Config.CLEAR_SETTLE)]

/-- R152. -/
def cmdActions (b : Byte) : List Action := sendByteActions 0 b

/-- R154. -/
def chrActions (b : Byte) : List Action := sendByteActions 1 b

/-- R156, R157: the byte is sent whatever the column; a column outside 1 to `W` makes the device undefined. -/
def curActions (w : Width) (row col : Byte) : List Action :=
  (if columnInRange w col then [] else [.markUndef]) ++ sendByteActions 0 (cursorByte row col)

/-- R158: each character by the single-character path, in text order. -/
def strActions (text : List Byte) : List Action := text.flatMap (sendByteActions 1)

/-- The state after `INIT` (R150). -/
def afterInit (s : State) : State := perform 1 initActions s

/-- The state after `CMD b` (R152). -/
def afterCmd (b : Byte) (s : State) : State := perform 2 (cmdActions b) s

/-- The state after `CHR b` (R154). -/
def afterChr (b : Byte) (s : State) : State := perform 2 (chrActions b) s

/-- The state after `CUR row, col` (R156). -/
def afterCur (row col : Byte) (s : State) : State := perform 3 (curActions s.dev.w row col) s

/-- The state after `STR` (R158). -/
def afterStr (text : List Byte) (s : State) : State := perform (2 + text.length) (strActions text) s

/-- `INIT` (R150). -/
def execInit (s : State) : Host.Outcome State Fault Refusal := .next (afterInit s)

/-- `CMD b` (R152, R153). -/
def execCmd (b : Byte) (s : State) : Host.Outcome State Fault Refusal := .next (afterCmd b s)

/-- `CHR b` (R154). -/
def execChr (b : Byte) (s : State) : Host.Outcome State Fault Refusal := .next (afterChr b s)

/-- `CUR row, col` (R156, R157). -/
def execCur (row col : Byte) (s : State) : Host.Outcome State Fault Refusal := .next (afterCur row col s)

/-- `STR n, c1..cn` (R158). -/
def execStr (text : List Byte) (s : State) : Host.Outcome State Fault Refusal := .next (afterStr text s)

end Sys2Proof.Machine
end

