-- ==== Sys2Proof/Machine/Text.lean ====
section
/-! DEFINITION. The pure functions of the monitor iteration, transform, status text, value text, and the
expansion of `MON` into requests (R242 to R250). Character codes are ASCII (R109). -/

namespace Sys2Proof.Machine

/-- `temp(r) = 61 * r / 125`, exact (R242). -/
def temp (r : BitVec 10) : Temperature := ⟨Config.SCALE_NUM * r.toNat, Config.SCALE_DEN⟩

/-- `over(r) = over_t(temp(r))` (R243). -/
def overRaw (r : BitVec 10) : Bit := overT (temp r)

/-- `spaces(n)`: `n` characters of code 0x20 (R248). -/
def spaces (n : Nat) : List Byte := List.replicate n 0x20

/-- A text of fewer than `n` characters is filled with spaces to `n` (R245). -/
def padTo (n : Nat) (text : List Byte) : List Byte := text ++ spaces (n - text.length)

/-- The codes of "WARNING: HOT!" (R109, R245). -/
def hotText : List Byte :=
  [0x57, 0x41, 0x52, 0x4E, 0x49, 0x4E, 0x47, 0x3A, 0x20, 0x48, 0x4F, 0x54, 0x21]

/-- The codes of "Temperature:" (R109, R245). -/
def normalText : List Byte :=
  [0x54, 0x65, 0x6D, 0x70, 0x65, 0x72, 0x61, 0x74, 0x75, 0x72, 0x65, 0x3A]

/-- `status_t(t)`: the row 1 text, padded to `W` (R245; log entry 16 where `W` is not 16). -/
def statusT (w : Width) (t : Temperature) : List Byte :=
  padTo w.val (if overT t = 1 then hotText else normalText)

/-- `status(r) = status_t(temp(r))` (R245). -/
def status (w : Width) (r : BitVec 10) : List Byte := statusT w (temp r)

/-- The code of a decimal digit, `0` to `9` being 0x30 to 0x39 (R109). -/
def digitCode (d : Nat) : Byte := BitVec.ofNat 8 (0x30 + d)

/-- The decimal numeral of a number without leading zeros; the first argument is fuel, and a fuel above the
number's count of digits is enough (R247). -/
def decimalFrom : Nat → Nat → List Byte
  | 0, _ => []
  | fuel + 1, n =>
    if n < 10 then [digitCode n] else decimalFrom fuel (n / 10) ++ [digitCode (n % 10)]

/-- The decimal numeral of a number, a single `0` for zero (R247). -/
def decimal (n : Nat) : List Byte := decimalFrom (n + 1) n

/-- A temperature in hundredths, rounded to the nearest; an exact tie goes where the open parameter
`FMT_TIE` says (R247). -/
def hundredths (t : Temperature) : Nat :=
  let c := 100 * t.num / t.den
  let rest := 100 * t.num % t.den
  if 2 * rest < t.den then c
  else if 2 * rest = t.den then (if Config.fmtTieUp c then c + 1 else c)
  else c + 1

/-- `fmt2(t)`: the integer part, a decimal point, exactly two decimals; no sign and no padding (R247). -/
def fmt2 (t : Temperature) : List Byte :=
  let c := hundredths t
  decimal (c / 100) ++ [0x2E, digitCode (c % 100 / 10), digitCode (c % 10)]

/-- `value_t(t) = "Temp: " ++ fmt2(t) ++ " C"` (R246). -/
def valueT (t : Temperature) : List Byte :=
  [0x54, 0x65, 0x6D, 0x70, 0x3A, 0x20] ++ fmt2 t ++ [0x20, 0x43]

/-- `value(r) = value_t(temp(r))` (R246). -/
def value (r : BitVec 10) : List Byte := valueT (temp r)

/-- The eight requests `MON r` stands for, in order, with `w` columns per row (R111, R250). -/
def expansion (w : Width) (r : BitVec 10) : List Instr :=
  [.cur 1 1, .str (status w r), .cur 2 1, .str (spaces w.val), .cur 2 1, .str (value r),
    .alm (overRaw r), .dly .seconds Config.PACE]

end Sys2Proof.Machine
end

