-- ==== Sys2Proof/Machine/Monitor.lean ====
section
/-! DEFINITION. The pseudo-operation `MON`: its eight requests performed one after the other (R250). -/

namespace Sys2Proof.Machine

/-- `MON r` (R250): the requests that stand for it in the stream, so `rp` moves past all of them. -/
def execMon (r : BitVec 10) (s : State) : Host.Outcome State Fault Refusal :=
  .next (afterDly .seconds Config.PACE (afterAlm (overRaw r) (afterStr (value r) (afterCur 2 1
    (afterStr (spaces s.dev.w.val) (afterCur 2 1 (afterStr (status s.dev.w r) (afterCur 1 1 s))))))))

end Sys2Proof.Machine
end

