-- ==== Sys2Proof/Machine/Dispatch.lean ====
section
/-! DEFINITION. `exec`: one arm per row of the opcode table. -/

namespace Sys2Proof.Machine

def exec (i : Instr) (s : State) : Host.Outcome State Fault Refusal :=
  match i with
  | .init => Sys2Proof.Machine.execInit s
  | .cmd b => Sys2Proof.Machine.execCmd b s
  | .chr b => Sys2Proof.Machine.execChr b s
  | .cur row col => Sys2Proof.Machine.execCur row col s
  | .str text => Sys2Proof.Machine.execStr text s
  | .alm v => Sys2Proof.Machine.execAlm v s
  | .dly u k => Sys2Proof.Machine.execDly u k s
  | .mon r => Sys2Proof.Machine.execMon r s
  | .dClear => Sys2Proof.Machine.execDClear s
  | .d4bit => Sys2Proof.Machine.execD4bit s
  | .dAutoinc => Sys2Proof.Machine.execDAutoinc s
  | .dOnNocursor => Sys2Proof.Machine.execDOnNocursor s
  | .d2line => Sys2Proof.Machine.execD2line s
  | .dCursorRow1 off => Sys2Proof.Machine.execDCursorRow1 off s
  | .dCursorRow2 off => Sys2Proof.Machine.execDCursorRow2 off s
  | .dOther b => Sys2Proof.Machine.execDOther b s
  | .dChar b => Sys2Proof.Machine.execDChar b s
  | .pulse => Sys2Proof.Machine.execPulse s
  | .sendbyte m b => Sys2Proof.Machine.execSendbyte m b s

end Sys2Proof.Machine
end

