-- ==== Sys2Proof/WellFormed.lean ====
section
/-! DEFINITION. Which terms of `Instr` are operations of the spec. -/

namespace Sys2Proof

/-- A `STR` carries at most 255 characters, since its length operand is one byte (R96); with `w` columns per row a
cursor row's offset is below `w` (R192, R193) and `D_OTHER` stands only for bytes outside the listed commands (R63,
R194). The types of the other operands admit only legal values. -/
def Instr.wellFormed (w : Width) : Instr → Bool
  | .init => true
  | .cmd _ => true
  | .chr _ => true
  | .cur _ _ => true
  | .str text => decide (text.length ≤ 255)
  | .alm _ => true
  | .dly _ _ => true
  | .mon _ => true
  | .dClear => true
  | .d4bit => true
  | .dAutoinc => true
  | .dOnNocursor => true
  | .d2line => true
  | .dCursorRow1 off => decide (off.toNat < w.val)
  | .dCursorRow2 off => decide (off.toNat < w.val)
  | .dOther b => !Machine.isListedCommand w b
  | .dChar _ => true
  | .pulse => true
  | .sendbyte _ _ => true

end Sys2Proof
end

