-- ==== Sys2Proof/Decode.lean ====
section
/-! DEFINITION. The three decoders of the spec, total on all bytes: requests (R90 to R102), and bytes as the
device receives them (R106, R186, R195); after them the encoder, written from the same tables. -/

namespace Sys2Proof

/-- What the request decoder answers: an instruction with the bytes after it, or the reason the bytes are no
request of the spec (R99, R100, R101). -/
inductive Decoded where
  | ok (i : Instr) (rest : List Byte)
  /-- R99 -/
  | reservedOpcode (op : Byte)
  /-- R100 -/
  | reservedAlarmOperand (v : Byte)
  /-- R100 -/
  | reservedDelayUnit (u : Byte)
  /-- R101 -/
  | truncated
deriving DecidableEq, Repr

/-- Format `F1` with any operand byte (R91, R93, R94). -/
def decodeOperand (mk : Byte → Instr) : List Byte → Decoded
  | a :: rest => .ok (mk a) rest
  | [] => .truncated

/-- `CUR row, col`: format `F2`, every row and column legal (R95, R100). -/
def decodeCur : List Byte → Decoded
  | row :: col :: rest => .ok (.cur row col) rest
  | _ => .truncated

/-- `STR`: the length byte and that many text bytes, all of them present (R96, R101, R102). -/
def decodeStr : List Byte → Decoded
  | n :: rest =>
    if n.toNat ≤ rest.length then .ok (.str (rest.take n.toNat)) (rest.drop n.toNat) else .truncated
  | [] => .truncated

/-- `ALM v`: `v` is 0 or 1, every other value is reserved (R97, R100). -/
def decodeAlm : List Byte → Decoded
  | v :: rest =>
    if v = 0 then .ok (.alm 0) rest
    else if v = 1 then .ok (.alm 1) rest
    else .reservedAlarmOperand v
  | [] => .truncated

/-- `DLY u, k`: `u` is 0 or 1, every other value is reserved (R98, R100). A request whose last byte is missing
is truncated whatever its unit (log entry 5). -/
def decodeDly : List Byte → Decoded
  | u :: k :: rest =>
    if u = 0 then .ok (.dly .timeUnits k) rest
    else if u = 1 then .ok (.dly .seconds k) rest
    else .reservedDelayUnit u
  | _ => .truncated

/-- The request decoder: the opcode byte alone decides the format (R90, R91, R99, R102). -/
def decodeRequest : List Byte → Decoded
  | [] => .truncated
  | op :: rest =>
    if op = 0x10 then .ok .init rest
    else if op = 0x11 then decodeOperand .cmd rest
    else if op = 0x12 then decodeOperand .chr rest
    else if op = 0x13 then decodeCur rest
    else if op = 0x14 then decodeStr rest
    else if op = 0x20 then decodeAlm rest
    else if op = 0x30 then decodeDly rest
    else .reservedOpcode op

/-- The display command a byte with the mode line at 0 stands for (R63, R106, R186). -/
def decodeCommandByte (w : Width) (b : Byte) : Instr :=
  if b = 0x01 then .dClear
  else if b = 0x02 then .d4bit
  else if b = 0x06 then .dAutoinc
  else if b = 0x0C then .dOnNocursor
  else if b = 0x28 then .d2line
  else if Machine.isRow1Cursor w b then .dCursorRow1 (BitVec.ofNat 6 (Machine.row1Offset b))
  else if Machine.isRow2Cursor w b then .dCursorRow2 (BitVec.ofNat 6 (Machine.row2Offset b))
  else .dOther b

/-- What a byte at the device is: a command with `RS = 0`, a character with `RS = 1` (R103, R186, R195). -/
def decodeDevice (w : Width) (rs : Bit) (b : Byte) : Instr :=
  if rs = 0 then decodeCommandByte w b else .dChar b

/-- The opcode table's numbering of an instruction's bits: bit 0 is the least significant bit of the first
byte, and bits above `nbits` are 0. A first byte that is a request opcode is a request; a single byte that is
no request opcode is a display command byte: the spec keeps the two sets apart (R91, log entry 3). The table's
cursor rows are "exact only for W = 16", so bytes are read with that width. -/
def decodeTableWord (nbits w : Nat) : Option Instr :=
  let v := w % 2 ^ nbits
  let first := Machine.byteAt v 0
  if Machine.isRequestOpcode first then
    let longest := if first = 0x14 then 2 + (Machine.byteAt v 1).toNat else 3
    match decodeRequest (Machine.bytesOf longest v) with
    | .ok i _ => some i
    | .reservedOpcode _ => none
    | .reservedAlarmOperand _ => none
    | .reservedDelayUnit _ => none
    | .truncated => none
  else if nbits = 8 then some (decodeDevice Config.W 0 first)
  else none

/-! ## The encoder -/

/-- The unit byte of `DLY` (R98). -/
def unitByte : DelayUnit → Byte
  | .timeUnits => 0
  | .seconds => 1

/-- The bytes of a request in the stream (R92 to R98); rows that are no requests have none there. -/
def encodeRequest : Instr → List Byte
  | .init => [0x10]
  | .cmd b => [0x11, b]
  | .chr b => [0x12, b]
  | .cur row col => [0x13, row, col]
  | .str text => 0x14 :: BitVec.ofNat 8 text.length :: text
  | .alm v => [0x20, v.zeroExtend 8]
  | .dly u k => [0x30, unitByte u, k]
  | .mon _ => []
  | .dClear => []
  | .d4bit => []
  | .dAutoinc => []
  | .dOnNocursor => []
  | .d2line => []
  | .dCursorRow1 _ => []
  | .dCursorRow2 _ => []
  | .dOther _ => []
  | .dChar _ => []
  | .pulse => []
  | .sendbyte _ _ => []

/-- The mode line and the byte at the device for the rows that are device bytes (R104, R106); the other rows
have none. -/
def encodeDevice : Instr → Option (Bit × Byte)
  | .init => none
  | .cmd _ => none
  | .chr _ => none
  | .cur _ _ => none
  | .str _ => none
  | .alm _ => none
  | .dly _ _ => none
  | .mon _ => none
  | .dClear => some (0, 0x01)
  | .d4bit => some (0, 0x02)
  | .dAutoinc => some (0, 0x06)
  | .dOnNocursor => some (0, 0x0C)
  | .d2line => some (0, 0x28)
  | .dCursorRow1 off => some (0, Config.BASE_ROW1 + off.zeroExtend 8)
  | .dCursorRow2 off => some (0, Config.BASE_ROWX + off.zeroExtend 8)
  | .dOther b => some (0, b)
  | .dChar b => some (1, b)
  | .pulse => none
  | .sendbyte _ _ => none

/-- What the assembler writes into the stream for a request or for `MON`, whose encoding is that of its eight
requests one after the other, by the columns per row (R111); the single byte of a device row; nothing for the internal rows. -/
def encode (w : Width) : Instr → List Byte
  | .init => encodeRequest .init
  | .cmd b => encodeRequest (.cmd b)
  | .chr b => encodeRequest (.chr b)
  | .cur row col => encodeRequest (.cur row col)
  | .str text => encodeRequest (.str text)
  | .alm v => encodeRequest (.alm v)
  | .dly u k => encodeRequest (.dly u k)
  | .mon r => (Machine.expansion w r).flatMap encodeRequest
  | .dClear => [0x01]
  | .d4bit => [0x02]
  | .dAutoinc => [0x06]
  | .dOnNocursor => [0x0C]
  | .d2line => [0x28]
  | .dCursorRow1 off => [Config.BASE_ROW1 + off.zeroExtend 8]
  | .dCursorRow2 off => [Config.BASE_ROWX + off.zeroExtend 8]
  | .dOther b => [b]
  | .dChar b => [b]
  | .pulse => []
  | .sendbyte _ _ => []

/-- The length in bytes of a request (R91, R102), and of the expansion of `MON`; 0 for a row with no bytes in
the request stream. -/
def Instr.len (w : Width) : Instr → Nat
  | .init => 1
  | .cmd _ => 2
  | .chr _ => 2
  | .cur _ _ => 3
  | .str text => 2 + text.length
  | .alm _ => 2
  | .dly _ _ => 3
  | .mon r => 20 + (Machine.status w r).length + w.val + (Machine.value r).length
  | .dClear => 0
  | .d4bit => 0
  | .dAutoinc => 0
  | .dOnNocursor => 0
  | .d2line => 0
  | .dCursorRow1 _ => 0
  | .dCursorRow2 _ => 0
  | .dOther _ => 0
  | .dChar _ => 0
  | .pulse => 0
  | .sendbyte _ _ => 0

end Sys2Proof
end

