-- ==== Sys2Proof/Machine/Fetch.lean ====
section
/-! DEFINITION. What the sequencer does next: the request at `rp`, the end of the stream, or a refusal (R26 to
R28, R99 to R102, R302, R314); and how an instruction is put where it fetches. -/

namespace Sys2Proof.Machine

/-- What a state does next. -/
inductive Fetched where
  /-- perform this instruction from this state -/
  | run (i : Instr) (s : State)
  /-- no instruction: this is the next state -/
  | rest (s : State)
  /-- nothing more is performed -/
  | stop (r : Refusal)
deriving DecidableEq, Repr

/-- The request at `rp` of a state that is `READY` (R27, R28, R99 to R102, R314). -/
def fetchRequest (s : State) : Fetched :=
  if s.rp = s.req.length then .rest (endRun s)
  else
    match decodeRequest (s.req.drop s.rp) with
    | .ok i _ => .run i s
    | .reservedOpcode op => .rest (refuse (.reservedOpcode op) s)
    | .reservedAlarmOperand v => .rest (refuse (.reservedAlarmOperand v) s)
    | .reservedDelayUnit u => .rest (refuse (.reservedDelayUnit u) s)
    | .truncated => .rest (refuse (.truncatedRequest s.rp) s)

/-- A byte put at the device from outside is taken first (the model's own `port`, log entry 3); else the
sequencer goes by `SEQ` (R27): at `ENDED` nothing more happens, at `REFUSED` no further request is
performed. -/
def fetch (s : State) : Fetched :=
  match s.port with
  | some (rs, b) => .run (decodeDevice s.dev.w rs b) { s with port := none }
  | none =>
    match s.seq with
    | .ready => fetchRequest s
    | .ended => .rest s
    | .refused => .stop (.requestRefused s.refused)

/-- The stream the host supplies for a run (R26, R315). -/
def withStream (stream : List Byte) (s : State) : State := { s with req := stream }

/-- A list with `bs` at places `k`, `k + 1`, ..., filled with zeros where it was shorter. -/
def overwrite (k : Nat) (bs l : List Byte) : List Byte :=
  l.take k ++ List.replicate (k - l.length) 0 ++ bs ++ l.drop (k + bs.length)

/-- The instruction of an opcode-table word put where `fetch` takes its next instruction: a request in the
stream at `rp` with the sequencer `READY`, a display command byte at the device's port (log entry 3). -/
def placeWord (s : State) (nbits w : Nat) : State :=
  match decodeTableWord nbits w with
  | some i =>
    match encodeDevice i with
    | some p => { s with port := some p }
    | none =>
      { s with
        req := overwrite s.rp (bytesOf (i.len s.dev.w) (w % 2 ^ nbits)) s.req
        seq := .ready
        ms := 0
        port := none }
  | none =>
    { s with req := overwrite s.rp (bytesOf ((nbits + 7) / 8) w) s.req, seq := .ready, ms := 0, port := none }

end Sys2Proof.Machine
end

