-- ==== Sys2Proof/Machine/Asm.lean ====
section
/-! DEFINITION. The assembler syntax of the spec (R109 to R111), from text to the bytes of the request stream.
`MON r` is replaced by its eight requests, which depend on the
display's columns per row, and rejected above 1023. Points R110 leaves open: log entry 10. -/

namespace Sys2Proof.Machine

/-- The parts of a line: a mnemonic in capitals, a number, a string, a comma. -/
inductive Token where
  | word (w : List Char)
  | num (n : Nat)
  | text (bs : List Byte)
  | comma
deriving DecidableEq, Repr

/-- The code of a character, ASCII (R109); no other character has one. -/
def charCode (c : Char) : Option Byte := if c.toNat < 128 then some (BitVec.ofNat 8 c.toNat) else none

/-- The codes of a text in order, if each character has one. -/
def charCodes : List Char → Option (List Byte)
  | [] => some []
  | c :: cs =>
    match charCode c, charCodes cs with
    | some b, some bs => some (b :: bs)
    | _, _ => none

/-- The value of a hexadecimal digit. -/
def hexDigit (c : Char) : Option Nat :=
  if '0' ≤ c ∧ c ≤ '9' then some (c.toNat - 48)
  else if 'A' ≤ c ∧ c ≤ 'F' then some (c.toNat - 55)
  else if 'a' ≤ c ∧ c ≤ 'f' then some (c.toNat - 87)
  else none

/-- The value of a digit of a base up to 16. -/
def digitIn (base : Nat) (c : Char) : Option Nat :=
  match hexDigit c with
  | some d => if d < base then some d else none
  | none => none

/-- The digits of a number, most significant first, onto the value read so far. -/
def digitsValue (base : Nat) : Nat → List Char → Option Nat
  | acc, [] => some acc
  | acc, c :: cs =>
    match digitIn base c with
    | some d => digitsValue base (acc * base + d) cs
    | none => none

/-- "A number is decimal or `0x` hexadecimal" (R110). -/
def parseNumber : List Char → Option Nat
  | '0' :: 'x' :: c :: cs => digitsValue 16 0 (c :: cs)
  | c :: cs => digitsValue 10 0 (c :: cs)
  | [] => none

/-- A token before the tokens of what is left of the line. -/
def consToken (t : Option Token) (ts : Option (List Token)) : Option (List Token) :=
  match t, ts with
  | some t, some ts => some (t :: ts)
  | _, _ => none

/-- The tokens of a line; "a semicolon starts a comment that runs to the end of the line" (R110). DESIGN CHOICE
(log entry 10): a character constant is the number of its code, so it stands for any numeric operand, where R110
speaks of a character operand only; and no blank need stand between two tokens, so not between a mnemonic and
its first operand either (`CMD0x28`), where R110 is silent. The first argument is fuel; a fuel above the line's
length is enough. -/
def tokens : Nat → List Char → Option (List Token)
  | 0, _ => none
  | _ + 1, [] => some []
  | fuel + 1, c :: cs =>
    if c = ' ' ∨ c = '\t' then tokens fuel cs
    else if c = ';' then some []
    else if c = ',' then consToken (some .comma) (tokens fuel cs)
    else if c = '"' then
      match cs.dropWhile (· != '"') with
      | _ :: rest => consToken ((charCodes (cs.takeWhile (· != '"'))).map .text) (tokens fuel rest)
      | [] => none
    else if c = '\'' then
      match cs with
      | x :: '\'' :: rest => consToken ((charCode x).map fun b => .num b.toNat) (tokens fuel rest)
      | _ => none
    else if c.isDigit then
      consToken ((parseNumber (c :: cs.takeWhile Char.isAlphanum)).map .num)
        (tokens fuel (cs.dropWhile Char.isAlphanum))
    else if c.isUpper then
      consToken (some (.word (c :: cs.takeWhile Char.isUpper))) (tokens fuel (cs.dropWhile Char.isUpper))
    else none

/-- An operand of one byte. -/
def byteOperand (n : Nat) : Option Byte := if n < 256 then some (BitVec.ofNat 8 n) else none

/-- `op, a`. -/
def asm1 (op : Byte) (a : Nat) : Option (List Byte) := (byteOperand a).map fun a => [op, a]

/-- `op, a, b`. -/
def asm2 (op : Byte) (a b : Nat) : Option (List Byte) :=
  match byteOperand a, byteOperand b with
  | some a, some b => some [op, a, b]
  | _, _ => none

/-- `MON r`: the expansion, and a rejection for a sample above 1023 (R111). -/
def asmMon (width : Width) (r : Nat) : Option (List Byte) :=
  if r ≤ Config.RAW_MAX then some (encode width (.mon (BitVec.ofNat 10 r))) else none

/-- Operands "separated by commas" (R110), the commas taken out. -/
def separated : List Token → Option (List Token)
  | [] => some []
  | t :: rest =>
    if t = .comma then none
    else
      match rest with
      | [] => some [t]
      | c :: more => if c = .comma ∧ more ≠ [] then consToken (some t) (separated more) else none

/-- The number a token is. -/
def tokenNumber : Token → Option Nat
  | .num n => some n
  | .word _ => none
  | .text _ => none
  | .comma => none

/-- The string a token is. -/
def tokenText : Token → Option (List Byte)
  | .text bs => some bs
  | .word _ => none
  | .num _ => none
  | .comma => none

/-- The one operand of a list that has one. -/
def only : List Token → Option Token
  | [t] => some t
  | _ => none

/-- Both operands of a list that has two numbers. -/
def asmTwo (op : Byte) : List Token → Option (List Byte)
  | [t, u] =>
    match tokenNumber t, tokenNumber u with
    | some a, some b => asm2 op a b
    | _, _ => none
  | _ => none

/-- The request of a mnemonic and its operands. -/
def assembleOp (width : Width) (w : List Char) (args : List Token) : Option (List Byte) :=
  if w = ['I', 'N', 'I', 'T'] then (if args = [] then some (encodeRequest .init) else none)
  else if w = ['C', 'M', 'D'] then ((only args).bind tokenNumber).bind (asm1 0x11)
  else if w = ['C', 'H', 'R'] then ((only args).bind tokenNumber).bind (asm1 0x12)
  else if w = ['C', 'U', 'R'] then asmTwo 0x13 args
  else if w = ['S', 'T', 'R'] then
    ((only args).bind tokenText).bind fun bs =>
      if bs.length ≤ 255 then some (encodeRequest (.str bs)) else none
  else if w = ['A', 'L', 'M'] then ((only args).bind tokenNumber).bind (asm1 0x20)
  else if w = ['D', 'L', 'Y'] then asmTwo 0x30 args
  else if w = ['M', 'O', 'N'] then ((only args).bind tokenNumber).bind (asmMon width)
  else none

/-- The bytes of one line; a blank line or a comment gives none, and a line that is no request of R110 is
rejected. -/
def assemble (width : Width) : List Token → Option (List Byte)
  | [] => some []
  | .word w :: args => (separated args).bind (assembleOp width w)
  | .num _ :: _ => none
  | .text _ :: _ => none
  | .comma :: _ => none

/-- One line of assembly. -/
def asmLine (width : Width) (line : List Char) : Option (List Byte) :=
  match tokens (line.length + 1) line with
  | some ts => assemble width ts
  | none => none

/-- The lines of a text, the first being the characters before the first line end. -/
def splitLines : List Char → List (List Char)
  | [] => [[]]
  | c :: cs =>
    if c = '\n' then [] :: splitLines cs
    else
      match splitLines cs with
      | l :: ls => (c :: l) :: ls
      | [] => [[c]]

/-- The request stream of a program, "one request per line" (R110). -/
def asmLines (width : Width) : List (List Char) → Option (List Byte)
  | [] => some []
  | l :: ls =>
    match asmLine width l, asmLines width ls with
    | some bs, some rest => some (bs ++ rest)
    | _, _ => none

/-- The request stream a program text stands for. -/
def asmProgram (width : Width) (text : List Char) : Option (List Byte) := asmLines width (splitLines text)

end Sys2Proof.Machine
end

