-- ==== Sys2Proof/Machine/Micro.lean ====
section
/-! DEFINITION. The machine in the middle of a request: one event at a time, counted by `ms` (R29, D30). A run
of these smaller steps and one whole step meet in the same state. -/

namespace Sys2Proof.Machine

/-- The micro-operations of a request, by the value the latch has when it starts and the columns per row; `none`
for a row that is no request (R130 to R158, R222, R240). -/
def requestActions (i : Instr) (trig : Bit) (w : Width) : Option (List Action) :=
  match i with
  | .init => some initActions
  | .cmd b => some (cmdActions b)
  | .chr b => some (chrActions b)
  | .cur row col => some (curActions w row col)
  | .str text => some (strActions text)
  | .alm v => some (almActions v trig)
  | .dly u k => some (dlyActions u k)
  | .mon _ => none
  | .dClear => none
  | .d4bit => none
  | .dAutoinc => none
  | .dOnNocursor => none
  | .d2line => none
  | .dCursorRow1 _ => none
  | .dCursorRow2 _ => none
  | .dOther _ => none
  | .dChar _ => none
  | .pulse => none
  | .sendbyte _ _ => none

/-- One micro-step of a request with these micro-operations left: up to and with its next event, counted in
`ms`; with no event left, the writes that remain and the end of the request. -/
def microRun (len : Nat) : List Action → State → State
  | [], s => finish len s
  | .ev e :: _, s => { emit e s with ms := s.ms + 1 }
  | .latch m b :: as, s => microRun len as (act (.latch m b) s)
  | .setTrig v :: as, s => microRun len as (act (.setTrig v) s)
  | .markUndef :: as, s => microRun len as (act .markUndef s)

/-- One micro-step: of the request at `rp`, or the whole step where the machine performs no request. -/
def microStep (s : State) : Host.Outcome State Fault Refusal :=
  match fetch s with
  | .run i t =>
    match requestActions i t.trig t.dev.w with
    | some as => .next (microRun (i.len t.dev.w) (resume t.ms as) t)
    | none => exec i t
  | .rest t => .next t
  | .stop r => .refused r

/-- `n` micro-steps, ending at the first that answers no next state. -/
def microSteps : Nat → State → Host.Outcome State Fault Refusal
  | 0, s => .next s
  | n + 1, s =>
    match microStep s with
    | .next t => microSteps n t
    | .fault f => .fault f
    | .refused r => .refused r

end Sys2Proof.Machine
end

