-- ==== Sys2Proof/Machine/Observe.lean ====
section
/-! DEFINITION. What can be read off a run: the pairs latched at the falling edges of `EN`, the buzzer pulses,
the least time taken, and what the display shows (R134, R135, R198, R313; decision D33). -/

namespace Sys2Proof.Machine

/-- The pairs `(RS, DB)` at the falling edges of `EN`, read from an event list alone, given the line values
before it (R134, R183). -/
def fallingPairs (rs : Bit) (db : Nibble) (en : Bit) : List Event → List (Bit × Nibble)
  | [] => []
  | .rs v :: es => fallingPairs v db en es
  | .db n :: es => fallingPairs rs n en es
  | .en v :: es =>
    if v = 0 ∧ en = 1 then (rs, db) :: fallingPairs rs db v es else fallingPairs rs db v es
  | .buz _ :: es => fallingPairs rs db en es
  | .t _ :: es => fallingPairs rs db en es
  | .s _ :: es => fallingPairs rs db en es

/-- The number of `BUZ=1` events (R223). -/
def buzzerPulses : List Event → Nat
  | [] => 0
  | .buz v :: es => (if v = 1 then 1 else 0) + buzzerPulses es
  | .rs _ :: es => buzzerPulses es
  | .en _ :: es => buzzerPulses es
  | .db _ :: es => buzzerPulses es
  | .t _ :: es => buzzerPulses es
  | .s _ :: es => buzzerPulses es

/-- The sum of the delays in time units, a lower bound (R135, R313). -/
def timeUnits : List Event → Nat
  | [] => 0
  | .t k :: es => k + timeUnits es
  | .rs _ :: es => timeUnits es
  | .en _ :: es => timeUnits es
  | .db _ :: es => timeUnits es
  | .buz _ :: es => timeUnits es
  | .s _ :: es => timeUnits es

/-- The sum of the delays in seconds, a lower bound (R313). -/
def secondsOf : List Event → Nat
  | [] => 0
  | .s k :: es => k + secondsOf es
  | .rs _ :: es => secondsOf es
  | .en _ :: es => secondsOf es
  | .db _ :: es => secondsOf es
  | .buz _ :: es => secondsOf es
  | .t _ :: es => secondsOf es

/-- The least time in seconds an event list takes, with the open length `TU` of a time unit (R6, R241). -/
def leastSeconds (es : List Event) : Rat := timeUnits es * Config.TU + secondsOf es

/-- The cells of a row from column 1 on, `none` where one is `unknown` (R198). -/
def rowCells (row : Row) (d : Dev) : List (Option Byte) :=
  (List.range d.w.val).map fun k => d.cellAt row (k + 1)

/-- `row_text(row)`: defined when `dev.undef = false` and none of the cells is `unknown` (R198). -/
def rowText (row : Row) (d : Dev) : Option (List Byte) :=
  if d.undef then none
  else if (rowCells row d).all Option.isSome then some (rowCells row d).reduceOption else none

/-- What the display shows on a row: its text, when the display is on (R198). -/
def shown (row : Row) (d : Dev) : Option (List Byte) := if d.on then rowText row d else none

end Sys2Proof.Machine
end

