-- ==== Sys2Proof/Safety.lean ====
section
/-! DEFINITION. What claims are stated with: the device's definedness, the states a device effect is stated
for, and the invariant of the machine between steps. -/

namespace Sys2Proof.Machine

/-- No mark of undefined behaviour stands: the premise of a claim about the display (R39, R284). -/
def Dev.defined (d : Dev) : Prop := d.undef = false

/-- The device waits for the high nibble of a byte in 4-bit mode, with no wait left and `EN` low: what INIT
leaves, and every request of an initialized display that keeps to the hazards (R150, R253, R308). -/
structure Dev.Aligned (d : Dev) : Prop where
  if4 : d.if4 = true
  ph : d.ph = .hi
  wait : d.wait = 0
  en : d.en = 0

/-- The device takes nibbles in pairs from here on, or is not yet in 4-bit mode: no byte is half received and
`EN` is low (R66, R308). -/
structure Dev.Paired (d : Dev) : Prop where
  ph : d.if4 = true → d.ph = .hi
  en : d.en = 0

/-- The cell space is canonical and holds cells only, and the cursor is a place of R38. -/
structure Dev.Wf (d : Dev) : Prop where
  mem : Memory.wf d.cell = true
  cells : Memory.onCells d.w d.cell = true
  cur : ∀ c, d.cur = some c → 1 ≤ c.col ∧ c.col ≤ d.w.val + 1

/-- What holds between the steps of every run. -/
structure State.Inv (s : State) : Prop where
  /-- no request is half performed (R12, R29) -/
  ms : s.ms = 0
  /-- "`EN` is 0 before and after every `PULSE`" (R131) -/
  en : s.en = 0
  /-- "`BUZ = 0` before and after every request" (R223) -/
  buz : s.buz = 0
  /-- the device has seen what `EN` is (R47) -/
  devEn : s.dev.en = 0
  /-- no pulse is under way (R33, R130) -/
  hold : s.dev.hold = 0
  /-- no wait is longer than the power-on settle, which `S_GE_TU` covers (R32, R181) -/
  wait : s.dev.wait ≤ Config.POWERON
  /-- nibble pairing never slips on a defined device (R66, R308) -/
  paired : s.dev.undef = false → s.dev.ph = .hi
  /-- 20_memory.md, R38 -/
  dev : s.dev.Wf
  /-- `refused` is set together with `SEQ <- REFUSED` (R46) -/
  refused : s.seq = .refused ↔ s.refused.isSome = true
  /-- `rp` is a place in the stream (R28) -/
  rp : s.rp ≤ s.req.length

/-- Instructions one after the other, ending at the first that answers no next state (R69). -/
def execAll : List Instr → State → Host.Outcome State Fault Refusal
  | [], s => .next s
  | i :: is, s =>
    match exec i s with
    | .next t => execAll is t
    | .fault f => .fault f
    | .refused r => .refused r

/-- `n` steps, ending at the first that answers no next state. -/
def steps : Nat → State → Host.Outcome State Fault Refusal
  | 0, s => .next s
  | n + 1, s =>
    match step s with
    | .next t => steps n t
    | .fault f => .fault f
    | .refused r => .refused r

end Sys2Proof.Machine
end

