-- ==== Sys2Proof/Certificates/Slice0/Obligations.lean ====
section
/-! DEFINITION. The statements about the model, each with the rules of the spec it formalises. -/

namespace Sys2Proof.Claims

open Sys2Proof.Machine

/-! ## Words the statements share -/

/-- The ten events that carry a byte with mode `m`, high nibble `h` and low nibble `l` (R132). -/
def frame (m : Bit) (h l : Nibble) : List Event :=
  [.rs m, .db h, .en 1, .t 1, .en 0, .db l, .en 1, .t 1, .en 0, .t 2]

/-- The event list of `SENDBYTE(m, b)`, as R132 writes it. -/
def byteTrace (m : Bit) (b : Byte) : List Event := frame m (b.extractLsb 7 4) (b.extractLsb 3 0)

/-- The event list of `INIT`, as R150 writes it. -/
def initTrace : List Event :=
  Event.t 20 :: (frame 0 0x0 0x2 ++ frame 0 0x2 0x8 ++ frame 0 0x0 0xC ++ frame 0 0x0 0x6 ++ frame 0 0x0 0x1
    ++ [Event.t 2])

/-- The level of a line after an event list, from its level before. -/
def rsAfter (v : Bit) : List Event → Bit
  | [] => v
  | .rs w :: es => rsAfter w es
  | _ :: es => rsAfter v es

/-- The level of `EN` after an event list. -/
def enAfter (v : Bit) : List Event → Bit
  | [] => v
  | .en w :: es => enAfter w es
  | _ :: es => enAfter v es

/-- The data lines after an event list. -/
def dbAfter (v : Nibble) : List Event → Nibble
  | [] => v
  | .db w :: es => dbAfter w es
  | _ :: es => dbAfter v es

/-- The level of `BUZ` after an event list. -/
def buzAfter (v : Bit) : List Event → Bit
  | [] => v
  | .buz w :: es => buzAfter w es
  | _ :: es => buzAfter v es

/-- A reading of the alarm's input: what `ALM` requests, and the `ALM` inside `MON`, evaluate (R222, R250). -/
def alarmInputs : List Instr → List Bit
  | [] => []
  | .alm v :: is => v :: alarmInputs is
  | .mon r :: is => overRaw r :: alarmInputs is
  | _ :: is => alarmInputs is

/-- The number of maximal runs of consecutive 1s: one for each 1 that no 1 follows. -/
def runsOfOnes : List Bit → Nat
  | [] => 0
  | [v] => if v = 1 then 1 else 0
  | v :: w :: vs => (if v = 1 ∧ w = 0 then 1 else 0) + runsOfOnes (w :: vs)

/-- The number a decimal numeral stands for, most significant digit first (codes of R109). -/
def numeralValue (ds : List Byte) : Nat := ds.foldl (fun acc d => 10 * acc + (d.toNat - 0x30)) 0

/-- A decimal numeral without leading zeros (R247, R109). -/
def IsNumeral (ds : List Byte) : Prop :=
  ds ≠ [] ∧ (∀ d ∈ ds, 0x30 ≤ d.toNat ∧ d.toNat ≤ 0x39) ∧ (ds.length = 1 ∨ ds.head? ≠ some 0x30)

/-- The least time of each operation in time units, R313's table; in `MON` three cursor bytes and the characters
of its three texts, with `w` columns per row. -/
def leastUnits (w : Width) : Instr → Nat
  | .init => 42
  | .cmd _ => 4
  | .chr _ => 4
  | .cur _ _ => 4
  | .str text => 4 * text.length
  | .alm _ => 0
  | .dly .timeUnits k => k.toNat
  | .dly .seconds _ => 0
  | .mon r => 4 * (3 + (status w r).length + w.val + (value r).length)
  | .pulse => 1
  | .sendbyte _ _ => 4
  | .dClear => 0
  | .d4bit => 0
  | .dAutoinc => 0
  | .dOnNocursor => 0
  | .d2line => 0
  | .dCursorRow1 _ => 0
  | .dCursorRow2 _ => 0
  | .dOther _ => 0
  | .dChar _ => 0

/-- The least time of each operation in seconds, R313's table, by the latch before it. -/
def leastSecs (trig : Bit) : Instr → Nat
  | .alm v => if v = 1 ∧ trig = 0 then 5 else 0
  | .dly .seconds k => k.toNat
  | .mon r => if overRaw r = 1 ∧ trig = 0 then 6 else 1
  | _ => 0

/-- The last character of a text, where it has one. -/
def lastOr (b : Byte) (text : List Byte) : Byte := text.getLast?.getD b

/-- The operations a host or the assembler can ask for: the seven requests and `MON` (R11). -/
def IsOperation (i : Instr) : Prop := i.format = .req ∨ i.format = .pseudo

end Sys2Proof.Claims

open Sys2Proof Sys2Proof.Machine Sys2Proof.Claims

/-! ## Encoding and the request stream -/

/-- R92 to R98, R102: the decoder reads back every well-formed request the encoder wrote, with every operand at
every value, whatever follows it in the stream. -/
def Obligations.RequestDecodesWhatWasEncoded : Prop :=
  ∀ (w : Width) (i : Instr) (rest : List Byte), i.format = .req → i.wellFormed w = true →
    decodeRequest (encodeRequest i ++ rest) = .ok i rest

/-- R112: no bytes but its encoding stand for a request, and only well-formed requests are decoded. -/
def Obligations.RequestHasOneEncoding : Prop :=
  ∀ (w : Width) (bs rest : List Byte) (i : Instr), decodeRequest bs = .ok i rest →
    i.format = .req ∧ i.wellFormed w = true ∧ bs = encodeRequest i ++ rest

/-- R102: the opcode byte, and for `STR` the byte after it, tell the length; any other opcode byte is
reserved. -/
def Obligations.OpcodeTellsLength : Prop :=
  (∀ (op : Byte) (bs rest : List Byte) (i : Instr), decodeRequest (op :: bs) = .ok i rest →
    (op = 0x10 ∧ rest = bs)
      ∨ ((op = 0x11 ∨ op = 0x12 ∨ op = 0x20) ∧ rest = bs.drop 1 ∧ 1 ≤ bs.length)
      ∨ ((op = 0x13 ∨ op = 0x30) ∧ rest = bs.drop 2 ∧ 2 ≤ bs.length)
      ∨ (op = 0x14 ∧ ∃ n tail, bs = n :: tail ∧ n.toNat ≤ tail.length ∧ rest = tail.drop n.toNat))
    ∧ ∀ (op : Byte) (bs : List Byte),
      (op ≠ 0x10 ∧ op ≠ 0x11 ∧ op ≠ 0x12 ∧ op ≠ 0x13 ∧ op ≠ 0x14 ∧ op ≠ 0x20 ∧ op ≠ 0x30) →
        decodeRequest (op :: bs) = .reservedOpcode op

/-- R106, R63, R103: the device rows and the bytes at the device stand for each other, every byte with either
mode, for every number of columns per row. -/
def Obligations.DeviceBytesDecodeAndEncode : Prop :=
  ∀ w : Width, (∀ (i : Instr) (rs : Bit) (b : Byte), i.wellFormed w = true → encodeDevice i = some (rs, b) →
    decodeDevice w rs b = i)
    ∧ ∀ (rs : Bit) (b : Byte), encodeDevice (decodeDevice w rs b) = some (rs, b)
      ∧ (decodeDevice w rs b).wellFormed w = true

/-- R92 to R98, R106, R110: some words of the spec's own tables. -/
def Obligations.KnownWordsDecode : Prop :=
  decodeTableWord 8 0x10 = some .init
    ∧ decodeTableWord 16 0x2811 = some (.cmd 0x28)
    ∧ decodeTableWord 16 0x4112 = some (.chr 0x41)
    ∧ decodeTableWord 24 0x100213 = some (.cur 2 16)
    ∧ decodeTableWord 32 0x69480214 = some (.str [0x48, 0x69])
    ∧ decodeTableWord 16 0x0120 = some (.alm 1)
    ∧ decodeTableWord 24 0x020030 = some (.dly .timeUnits 2)
    ∧ decodeTableWord 24 0x010130 = some (.dly .seconds 1)
    ∧ decodeTableWord 8 0x01 = some .dClear
    ∧ decodeTableWord 8 0x84 = some (.dCursorRow1 4)
    ∧ decodeTableWord 8 0xCF = some (.dCursorRow2 15)
    ∧ decodeTableWord 16 0x0220 = none

/-- R26 to R28, R302: a step of a machine that is ready performs the request that stands at `rp`. -/
def Obligations.StepRunsRequestAtPointer : Prop :=
  ∀ (s : State) (i : Instr) (rest : List Byte), s.port = none → s.seq = .ready →
    i.format = .req → i.wellFormed s.dev.w = true → s.req.drop s.rp = encodeRequest i ++ rest →
      step s = exec i s

/-- A byte at the model's own device port (log entry 3) is taken by the next step, as the device row it
decodes to. -/
def Obligations.StepRunsByteAtPort : Prop :=
  ∀ (s : State) (i : Instr) (rs : Bit) (b : Byte), i.wellFormed s.dev.w = true → encodeDevice i = some (rs, b) →
    s.port = some (rs, b) → step s = exec i { s with port := none }

/-- R99: a reserved opcode at `rp` is refused; no event, no register changes, `rp` does not move; and no later
request is performed. -/
def Obligations.ReservedOpcodeIsRefused : Prop :=
  ∀ (s : State) (op : Byte) (rest : List Byte), s.port = none → s.seq = .ready →
    s.req.drop s.rp = op :: rest →
    (op.toNat ≤ 0x0F ∨ (0x15 ≤ op.toNat ∧ op.toNat ≤ 0x1F) ∨ (0x21 ≤ op.toNat ∧ op.toNat ≤ 0x2F)
      ∨ 0x31 ≤ op.toNat) →
      step s = .next { s with seq := .refused, refused := some (.reservedOpcode op) }
        ∧ step { s with seq := .refused, refused := some (.reservedOpcode op) }
          = .refused (.requestRefused (some (.reservedOpcode op)))

/-- R100: `ALM v` with `v` outside 0 and 1 and `DLY u, k` with `u` outside 0 and 1 are refused in the same
way as a reserved opcode; every value of every other operand is legal. -/
def Obligations.ReservedOperandIsRefused : Prop :=
  (∀ (s : State) (v : Byte) (rest : List Byte), s.port = none → s.seq = .ready → 1 < v.toNat →
    s.req.drop s.rp = 0x20 :: v :: rest →
      step s = .next { s with seq := .refused, refused := some (.reservedAlarmOperand v) })
    ∧ (∀ (s : State) (u k : Byte) (rest : List Byte), s.port = none → s.seq = .ready → 1 < u.toNat →
      s.req.drop s.rp = 0x30 :: u :: k :: rest →
        step s = .next { s with seq := .refused, refused := some (.reservedDelayUnit u) })
    ∧ ∀ (a b : Byte) (text rest : List Byte),
      decodeRequest (0x11 :: a :: rest) = .ok (.cmd a) rest
        ∧ decodeRequest (0x12 :: a :: rest) = .ok (.chr a) rest
        ∧ decodeRequest (0x13 :: a :: b :: rest) = .ok (.cur a b) rest
        ∧ (text.length ≤ 255 →
          decodeRequest (0x14 :: BitVec.ofNat 8 text.length :: (text ++ rest)) = .ok (.str text) rest)
        ∧ decodeRequest (0x30 :: 0 :: a :: rest) = .ok (.dly .timeUnits a) rest
        ∧ decodeRequest (0x30 :: 1 :: a :: rest) = .ok (.dly .seconds a) rest

/-- R101: if the stream ends before the last byte of the request that starts at `rp`, the request is refused
before any of its events. (A `DLY` cut short after a reserved unit byte is the next statement.) -/
def Obligations.TruncatedRequestIsRefused : Prop :=
  ∀ (s : State) (i : Instr) (missing : List Byte), s.port = none → s.seq = .ready →
    i.format = .req → i.wellFormed s.dev.w = true → s.req.drop s.rp ++ missing = encodeRequest i →
    missing ≠ [] → s.rp < s.req.length →
      step s = .next { s with seq := .refused, refused := some (.truncatedRequest s.rp) }

/-- The model's choice of log entry 5, where both R100 and R101 apply: a `DLY` with a reserved unit byte and no
count byte is refused as truncated. -/
def Obligations.TruncatedDelayBeforeItsUnit : Prop :=
  ∀ (s : State) (u : Byte), s.port = none → s.seq = .ready → 1 < u.toNat → s.req.drop s.rp = [0x30, u] →
    step s = .next { s with seq := .refused, refused := some (.truncatedRequest s.rp) }

/-- R27, R314: at the end of a finite stream `SEQ <- ENDED`, and then nothing more happens; in a refused run no
further request is performed. -/
def Obligations.StreamEndsAtItsLength : Prop :=
  (∀ s : State, s.port = none → s.seq = .ready → s.rp = s.req.length →
    step s = .next { s with seq := .ended })
    ∧ (∀ s : State, s.port = none → s.seq = .ended → step s = .next s)
    ∧ ∀ s : State, s.port = none → s.seq = .refused → step s = .refused (.requestRefused s.refused)

/-- R270, R284: a step never faults, and is refused only in a run that was refused before. -/
def Obligations.StepAlwaysAnswers : Prop :=
  ∀ s : State, (∃ t, step s = .next t) ∨ (s.seq = .refused ∧ s.port = none
    ∧ step s = .refused (.requestRefused s.refused))

/-! ## Reset -/

/-- R45: the values the spec's table gives. -/
def Obligations.ResetState : Prop :=
  State.reset.rs = 0 ∧ State.reset.en = 0 ∧ State.reset.db = 0 ∧ State.reset.buz = 0
    ∧ State.reset.trig = 0 ∧ State.reset.seq = .ready ∧ State.reset.rp = 0 ∧ State.reset.ms = 0
    ∧ State.reset.tr = [] ∧ State.reset.refused = none ∧ State.reset.dev.wait = 20
    ∧ State.reset.dev.hold = 0 ∧ State.reset.dev.en = 0 ∧ State.reset.dev.if4 = false
    ∧ State.reset.dev.ph = .hi ∧ State.reset.dev.lines2 = false ∧ State.reset.dev.on = false
    ∧ State.reset.dev.inc = false ∧ (∀ row col, State.reset.dev.cellAt row col = none)
    ∧ State.reset.dev.cur = none ∧ State.reset.dev.undef = false

/-! ## The bus -/

/-- R130: the three events of `PULSE`; only `EN` is written. R181 to R183: a defined device sees the two edges
and the hold with the values `RS` and `DB` had before. Where it had time left to wait the rising edge marks it
undefined, and that its other fields then still go by these rules is the model's choice (log entry 4). -/
def Obligations.PulseResult : Prop :=
  ∀ s : State, ∃ d, exec .pulse s = .next { s with en := 0, tr := s.tr ++ [.en 1, .t 1, .en 0], dev := d }
    ∧ (s.dev.defined → d = Dev.fall s.rs s.db (Dev.delayTu 1 s.dev.rise))

/-- R132: the ten events of `SENDBYTE`, the registers after it, and nothing else of the driver. -/
def Obligations.SendByteResult : Prop :=
  ∀ (m : Bit) (b : Byte) (s : State), ∃ d, exec (.sendbyte m b) s = .next { s with
    rs := m, db := b.extractLsb 3 0, en := 0, curMode := m, curByte := b
    tr := s.tr ++ byteTrace m b
    dev := d }

/-- R134: the pairs at the two falling edges of `EN` in the event list of `SENDBYTE` give the byte back. -/
def Obligations.SendByteRoundTrip : Prop :=
  ∀ (m : Bit) (b : Byte) (s t : State), s.en = 0 → exec (.sendbyte m b) s = .next t →
    ∃ evs r1 n1 r2 n2, t.tr = s.tr ++ evs
      ∧ fallingPairs s.rs s.db s.en evs = [(r1, n1), (r2, n2)]
      ∧ r1 = m ∧ r2 = m ∧ 16 * n1.toNat + n2.toNat = b.toNat

/-- R66, R308, R131: every request, and `MON`, sends an even number of pulses and leaves `EN` low, so the
device's pairing cannot slip. -/
def Obligations.PulsesComeInPairs : Prop :=
  ∀ (i : Instr) (s : State), IsOperation i → s.ms = 0 → s.en = 0 →
    ∃ t evs, exec i s = .next t ∧ t.tr = s.tr ++ evs ∧ t.en = 0
      ∧ (fallingPairs s.rs s.db s.en evs).length % 2 = 0

/-- R30, R20 to R23: every operation appends its events to the trace, and the lines afterwards are what those
events say; no line changes without its event. -/
def Obligations.LinesFollowTheTrace : Prop :=
  ∀ (i : Instr) (s : State), ∃ t evs, exec i s = .next t ∧ t.tr = s.tr ++ evs
    ∧ t.rs = rsAfter s.rs evs ∧ t.en = enAfter s.en evs ∧ t.db = dbAfter s.db evs
    ∧ t.buz = buzAfter s.buz evs

/-- R181, R182, R183, R196: what delays, the edges of `EN` and the other line events do to a defined device. -/
def Obligations.EdgeRules : Prop :=
  ∀ s : State, s.dev.defined →
    (∀ k : Nat, (emit (.t k) s).dev = { s.dev with wait := s.dev.wait - k, hold := s.dev.hold - k })
    ∧ (∀ k : Nat, 1 ≤ k → (emit (.s k) s).dev = { s.dev with wait := 0, hold := 0 })
    ∧ (emit (.s 0) s).dev = s.dev
    ∧ (s.dev.en = 0 → (emit (.en 1) s).dev = { s.dev with
        undef := s.dev.undef || decide (0 < s.dev.wait), hold := 1, en := 1 })
    ∧ (s.dev.en = 1 → (emit (.en 1) s).dev = s.dev)
    ∧ (s.dev.en = 0 → (emit (.en 0) s).dev = s.dev)
    ∧ (s.dev.en = 1 → (emit (.en 0) s).dev = Dev.takePair s.rs s.db { s.dev with
        undef := s.dev.undef || decide (0 < s.dev.hold), en := 0 })
    ∧ ∀ (v : Bit) (n : Nibble), (emit (.rs v) s).dev = s.dev ∧ (emit (.db n) s).dev = s.dev
      ∧ (emit (.buz v) s).dev = s.dev

/-- R184, R185: how a defined device handles a latched pair before and in 4-bit mode. -/
def Obligations.PairRules : Prop :=
  ∀ d : Dev, d.defined →
    (∀ (rs : Bit) (n : Nibble), d.if4 = false → d.takePair rs n =
      if rs = 0 ∧ n = 0x0 then d
      else if rs = 0 ∧ n = 0x2 then { d with if4 := true, ph := .hi, wait := 2 }
      else { d with undef := true })
    ∧ (∀ (rs : Bit) (n : Nibble), d.if4 = true → d.ph = .hi →
      d.takePair rs n = { d with hn := n, hrs := rs, ph := .lo })
    ∧ (∀ (rs : Bit) (n : Nibble), d.if4 = true → d.ph = .lo → rs ≠ d.hrs →
      d.takePair rs n = { d with ph := .hi, undef := true })
    ∧ ∀ (rs : Bit) (n : Nibble) (b : Byte), d.if4 = true → d.ph = .lo → rs = d.hrs →
      b.toNat = 16 * d.hn.toNat + n.toNat → d.takePair rs n = Dev.receive rs b { d with ph := .hi }

/-! ## The display requests: the driver -/

/-- R152: `CMD b`, the driver's side, for every byte and every state between requests. -/
def Obligations.CmdResult : Prop :=
  ∀ (b : Byte) (s : State), s.ms = 0 → ∃ d, exec (.cmd b) s = .next { s with
    rs := 0, db := b.extractLsb 3 0, en := 0, curMode := 0, curByte := b
    tr := s.tr ++ byteTrace 0 b
    rp := s.rp + 2
    dev := d }

/-- R154: `CHR b`, the driver's side. -/
def Obligations.ChrResult : Prop :=
  ∀ (b : Byte) (s : State), s.ms = 0 → ∃ d, exec (.chr b) s = .next { s with
    rs := 1, db := b.extractLsb 3 0, en := 0, curMode := 1, curByte := b
    tr := s.tr ++ byteTrace 1 b
    rp := s.rp + 2
    dev := d }

/-- R156, R107: `CUR row, col`, the driver's side: the byte `(base + col - 1) mod 256` is sent for every row
and every column. -/
def Obligations.CurResult : Prop :=
  ∀ (row col : Byte) (s : State), s.ms = 0 → ∃ (d : Dev) (c : Byte),
    c.toNat = ((if row = 1 then 0x80 else 0xC0) + col.toNat - 1) % 256
    ∧ exec (.cur row col) s = .next { s with
      rs := 0, db := c.extractLsb 3 0, en := 0, curMode := 0, curByte := c
      tr := s.tr ++ byteTrace 0 c
      rp := s.rp + 3
      dev := d }

/-- R158: `STR`, the driver's side, for every text of R96, 0 to 255 characters: the event lists of its
characters one after the other, and the registers of the last; nothing for the empty text. That a longer text,
which is no request, is sent alike is the model's choice (log entry 19). -/
def Obligations.StrResult : Prop :=
  ∀ (text : List Byte) (s : State), s.ms = 0 → ∃ d, exec (.str text) s = .next { s with
    rs := if text = [] then s.rs else 1
    db := if text = [] then s.db else (lastOr 0 text).extractLsb 3 0
    en := if text = [] then s.en else 0
    curMode := if text = [] then s.curMode else 1
    curByte := lastOr s.curByte text
    tr := s.tr ++ text.flatMap (byteTrace 1)
    rp := s.rp + 2 + text.length
    dev := d }

/-- R159: `STR` equals the run of `CHR` of its characters in everything but `rp`. The model's choices in it:
that `dev` is equal also where the device is or becomes undefined (log entry 4), and that a text above the 255
characters of R96 is sent alike (log entry 19). -/
def Obligations.StringEqualsItsCharacters : Prop :=
  ∀ (text : List Byte) (s : State), s.ms = 0 →
    ∃ t u, exec (.str text) s = .next t ∧ execAll (text.map .chr) s = .next u
      ∧ t = { u with rp := t.rp } ∧ t.rp = s.rp + 2 + text.length ∧ u.rp = s.rp + 2 * text.length

/-! ## The display requests: the device -/

/-- R150: `INIT`, the 52 events, the driver's registers, and from the device at power-on or a defined device in
4-bit mode between bytes, what the device holds. -/
def Obligations.InitResult : Prop :=
  (∀ s : State, s.ms = 0 → ∃ d, exec .init s = .next { s with
    rs := 0, db := 0x1, en := 0, curMode := 0, curByte := 0x01
    tr := s.tr ++ initTrace
    rp := s.rp + 1
    dev := d })
    ∧ timeUnits initTrace = 42
    ∧ ∀ s : State, s.ms = 0 → (s.dev = Dev.powerOn s.dev.w ∨ (s.dev.defined ∧ s.dev.Aligned)) →
      ∃ t, exec .init s = .next t
        ∧ t.dev.if4 = true ∧ t.dev.ph = .hi ∧ t.dev.lines2 = true ∧ t.dev.on = true ∧ t.dev.inc = true
        ∧ (∀ row col, 1 ≤ col ∧ col ≤ s.dev.w.val → t.dev.cellAt row col = some 0x20)
        ∧ t.dev.cur = none ∧ t.dev.wait = 0 ∧ t.dev.undef = false

/-- R151: `INIT` twice leaves the device and the driver's registers as `INIT` once; the trace is twice as long. -/
def Obligations.InitIsIdempotent : Prop :=
  ∀ s : State, s.ms = 0 → (s.dev = Dev.powerOn s.dev.w ∨ (s.dev.defined ∧ s.dev.Aligned)) →
    ∃ t u, exec .init s = .next t ∧ exec .init t = .next u ∧ u.dev = t.dev
      ∧ u.rs = 0 ∧ u.db = 0x1 ∧ u.en = 0 ∧ t.rs = 0 ∧ t.db = 0x1 ∧ t.en = 0
      ∧ u.buz = t.buz ∧ u.trig = t.trig
      ∧ t.tr = s.tr ++ initTrace ∧ u.tr = s.tr ++ initTrace ++ initTrace

/-- R186, R188 to R193, R106: a listed command byte other than clear, sent by `CMD` to a defined device in
4-bit mode that is settled. -/
def Obligations.ListedCommandsAtDevice : Prop :=
  ∀ s : State, s.ms = 0 → s.dev.defined → s.dev.Aligned →
    (∃ t, exec (.cmd 0x02) s = .next t
      ∧ t.dev = { s.dev with hn := 0x0, hrs := 0, hold := 0, cur := none })
    ∧ (∃ t, exec (.cmd 0x06) s = .next t
      ∧ t.dev = { s.dev with hn := 0x0, hrs := 0, hold := 0, inc := true })
    ∧ (∃ t, exec (.cmd 0x0C) s = .next t
      ∧ t.dev = { s.dev with hn := 0x0, hrs := 0, hold := 0, on := true })
    ∧ (∃ t, exec (.cmd 0x28) s = .next t
      ∧ t.dev = { s.dev with hn := 0x2, hrs := 0, hold := 0, lines2 := true })
    ∧ (∀ b : Byte, 0x80 ≤ b.toNat ∧ b.toNat < 0x80 + s.dev.w.val → ∃ t, exec (.cmd b) s = .next t
      ∧ t.dev = { s.dev with
        hn := b.extractLsb 7 4, hrs := 0, hold := 0, cur := some ⟨.row1, b.toNat - 0x80 + 1⟩ })
    ∧ (∀ b : Byte, 0xC0 ≤ b.toNat ∧ b.toNat < 0xC0 + s.dev.w.val → s.dev.lines2 = true → ∃ t,
      exec (.cmd b) s = .next t ∧ t.dev = { s.dev with
        hn := b.extractLsb 7 4, hrs := 0, hold := 0, cur := some ⟨.row2, b.toNat - 0xC0 + 1⟩ })
    ∧ ∀ b : Byte, 0xC0 ≤ b.toNat ∧ b.toNat < 0xC0 + s.dev.w.val → s.dev.lines2 = false → ∃ t,
      exec (.cmd b) s = .next t
      ∧ t.dev.undef = true

/-- R153, R187: after a bare `CMD 0x01` the device needs 2 more time units; a display request that sends a byte
at once makes it undefined, and a delay of at least 2 time units or one second makes it ready. -/
def Obligations.BareClearNeedsItsDelay : Prop :=
  ∀ s : State, s.ms = 0 → s.dev.defined → s.dev.Aligned →
    ∃ t, exec (.cmd 0x01) s = .next t ∧ t.dev.wait = 2 ∧ t.dev.undef = false ∧ t.dev.cur = none
      ∧ (∀ row col, 1 ≤ col ∧ col ≤ s.dev.w.val → t.dev.cellAt row col = some 0x20)
      ∧ (∀ b, ∃ u, exec (.cmd b) t = .next u ∧ u.dev.undef = true)
      ∧ (∀ b, ∃ u, exec (.chr b) t = .next u ∧ u.dev.undef = true)
      ∧ (∀ row col, ∃ u, exec (.cur row col) t = .next u ∧ u.dev.undef = true)
      ∧ (∀ text, text ≠ [] → ∃ u, exec (.str text) t = .next u ∧ u.dev.undef = true)
      ∧ (∀ k : Byte, 2 ≤ k.toNat → ∃ u, exec (.dly .timeUnits k) t = .next u
        ∧ u.dev.undef = false ∧ u.dev.Aligned)
      ∧ ∀ k : Byte, 1 ≤ k.toNat → ∃ u, exec (.dly .seconds k) t = .next u
        ∧ u.dev.undef = false ∧ u.dev.Aligned

/-- R194, R108: a command byte outside the spec's list makes the device undefined; the driver is defined all
the same (`CmdResult`). -/
def Obligations.UnlistedCommandIsUndefined : Prop :=
  ∀ (s : State) (b : Byte), s.ms = 0 → s.dev.Aligned →
    b ≠ 0x01 → b ≠ 0x02 → b ≠ 0x06 → b ≠ 0x0C → b ≠ 0x28 →
    ¬(0x80 ≤ b.toNat ∧ b.toNat < 0x80 + s.dev.w.val) → ¬(0xC0 ≤ b.toNat ∧ b.toNat < 0xC0 + s.dev.w.val) →
      ∃ t, exec (.cmd b) s = .next t ∧ t.dev.undef = true

/-- R195, R68: `CHR b` on a defined device that is settled: the byte goes to the cell under the cursor and to
no other, and the cursor moves right after command 0x06 and is unknown otherwise; with the cursor unknown or
past column `W` the device is undefined. -/
def Obligations.ChrAtDevice : Prop :=
  ∀ (s : State) (b : Byte), s.ms = 0 → s.dev.Aligned → s.dev.Wf → ∃ t, exec (.chr b) s = .next t
    ∧ (∀ c, s.dev.cur = some c → c.col ≤ s.dev.w.val → s.dev.defined →
      t.dev.undef = false ∧ t.dev.wait = 0 ∧ t.dev.cellAt c.row c.col = some b
        ∧ (∀ a, a ≠ cellAddr c.row c.col → Memory.read a t.dev.cell = Memory.read a s.dev.cell)
        ∧ t.dev.cur = (if s.dev.inc then some ⟨c.row, c.col + 1⟩ else none))
    ∧ ((s.dev.cur = none ∨ ∃ c, s.dev.cur = some c ∧ s.dev.w.val < c.col) → t.dev.undef = true)

/-- R156, R192, R193: `CUR` with a column in 1 to `W` on a defined device: row 1, or any other row on a device
configured for two lines, moves the cursor and writes no cell; any other row without two lines makes the device
undefined. -/
def Obligations.CurAtDevice : Prop :=
  ∀ (s : State) (row col : Byte), s.ms = 0 → s.dev.defined → s.dev.Aligned →
    1 ≤ col.toNat ∧ col.toNat ≤ s.dev.w.val → ∃ t, exec (.cur row col) s = .next t
      ∧ ((row = 1 ∨ s.dev.lines2 = true) →
        t.dev.cur = some ⟨if row = 1 then .row1 else .row2, col.toNat⟩ ∧ t.dev.undef = false
          ∧ t.dev.cell = s.dev.cell ∧ t.dev.wait = 0)
      ∧ (row ≠ 1 → s.dev.lines2 = false → t.dev.undef = true)

/-- R157, R310: with a column outside 1 to `W` the byte is computed and sent all the same, and the device is
undefined in every state, whatever byte results. -/
def Obligations.CurOutOfRangeIsUndefined : Prop :=
  (∀ (s : State) (row col : Byte), s.ms = 0 → (col.toNat = 0 ∨ s.dev.w.val < col.toNat) →
    ∃ t, exec (.cur row col) s = .next t ∧ t.dev.undef = true
      ∧ t.tr = s.tr ++ byteTrace 0 (cursorByte row col)
      ∧ t.rs = 0 ∧ t.db = (cursorByte row col).extractLsb 3 0 ∧ t.en = 0 ∧ t.rp = s.rp + 3)
    ∧ cursorByte 1 65 = 0xC0 ∧ cursorByte 1 129 = 0x00 ∧ cursorByte 1 130 = 0x01

/-- R158, R195: `STR` of a text that fits between the cursor and column `W`: its characters stand in the cells
from the cursor on, no other cell changes, and the cursor stands after the last. -/
def Obligations.StrAtDevice : Prop :=
  ∀ (s : State) (text : List Byte) (c : Cursor), s.ms = 0 → s.dev.defined → s.dev.Aligned →
    s.dev.inc = true → s.dev.cur = some c → 1 ≤ c.col →
    c.col + text.length ≤ s.dev.w.val + 1 →
    ∃ t, exec (.str text) s = .next t ∧ t.dev.undef = false ∧ t.dev.wait = 0
      ∧ t.dev.cur = some ⟨c.row, c.col + text.length⟩
      ∧ (∀ k, k < text.length → t.dev.cellAt c.row (c.col + k) = text[k]?)
      ∧ ∀ a, (∀ k, k < text.length → a ≠ cellAddr c.row (c.col + k)) →
        Memory.read a t.dev.cell = Memory.read a s.dev.cell

/-- R158, R311: a text that runs past column `W`, or a text with the cursor unknown, makes the device
undefined. -/
def Obligations.StrPastRowEndIsUndefined : Prop :=
  ∀ (s : State) (text : List Byte), s.ms = 0 → s.dev.Aligned → s.dev.Wf → text ≠ [] →
    (s.dev.cur = none ∨ ∃ c, s.dev.cur = some c ∧ s.dev.w.val + 1 < c.col + text.length) →
    ∃ t, exec (.str text) s = .next t ∧ t.dev.undef = true

/-- R61, R69 (c): as long as the device stays defined, a cell keeps its value through every request but a clear
and a character written to it: `CMD` of another byte, `CUR`, `ALM` and `DLY` store nothing, `CHR` stores at most
at the cursor's address, and `STR` at most at as many addresses from the cursor's on as it has characters, for a
device that receives bytes in pairs. (`INIT` contains a clear. Texts above 255 characters: log entry 19.) -/
def Obligations.CellsKeepTheirValue : Prop :=
  ∀ s : State, s.ms = 0 → s.dev.Paired →
    (∀ b, b ≠ 0x01 → ∃ t, exec (.cmd b) s = .next t
      ∧ (t.dev.undef = false → ∀ a, Memory.read a t.dev.cell = Memory.read a s.dev.cell))
    ∧ (∀ row col, ∃ t, exec (.cur row col) s = .next t
      ∧ (t.dev.undef = false → ∀ a, Memory.read a t.dev.cell = Memory.read a s.dev.cell))
    ∧ (∀ v, ∃ t, exec (.alm v) s = .next t
      ∧ (t.dev.undef = false → ∀ a, Memory.read a t.dev.cell = Memory.read a s.dev.cell))
    ∧ (∀ u k, ∃ t, exec (.dly u k) s = .next t
      ∧ (t.dev.undef = false → ∀ a, Memory.read a t.dev.cell = Memory.read a s.dev.cell))
    ∧ (∀ b, ∃ t, exec (.chr b) s = .next t
      ∧ (t.dev.undef = false → ∀ a, s.dev.cur.map (fun c => cellAddr c.row c.col) ≠ some a →
        Memory.read a t.dev.cell = Memory.read a s.dev.cell))
    ∧ ∀ text, ∃ t, exec (.str text) s = .next t
      ∧ (t.dev.undef = false →
        ∀ a, (∀ c k, s.dev.cur = some c → k < text.length → a ≠ cellAddr c.row (c.col + k)) →
          Memory.read a t.dev.cell = Memory.read a s.dev.cell)

/-- R182, R304, R307: a device that still needs time is undefined after any request that sends a byte without
a delay first, and `ALM` and `DLY` do not make it so. -/
def Obligations.UnsettledDeviceIsUndefined : Prop :=
  ∀ s : State, s.ms = 0 → s.dev.en = 0 → 0 < s.dev.wait →
    (∀ b, ∃ t, exec (.cmd b) s = .next t ∧ t.dev.undef = true)
    ∧ (∀ b, ∃ t, exec (.chr b) s = .next t ∧ t.dev.undef = true)
    ∧ (∀ row col, ∃ t, exec (.cur row col) s = .next t ∧ t.dev.undef = true)
    ∧ (∀ text, text ≠ [] → ∃ t, exec (.str text) s = .next t ∧ t.dev.undef = true)
    ∧ (∀ v, ∃ t, exec (.alm v) s = .next t ∧ t.dev.undef = s.dev.undef)
    ∧ ∀ u k, ∃ t, exec (.dly u k) s = .next t ∧ t.dev.undef = s.dev.undef

/-- R184, R307: a settled device that is not yet in 4-bit mode: command 0x02 puts it there, a byte 0x00 does
nothing, every other command and every character is undefined. -/
def Obligations.BytesBefore4bitMode : Prop :=
  ∀ s : State, s.ms = 0 → s.dev.if4 = false → s.dev.en = 0 → s.dev.wait = 0 →
    (s.dev.defined → ∃ t, exec (.cmd 0x02) s = .next t
      ∧ t.dev = { s.dev with if4 := true, ph := .hi, hold := 0 })
    ∧ (s.dev.defined → ∃ t, exec (.cmd 0x00) s = .next t ∧ t.dev = { s.dev with hold := 0 })
    ∧ (∀ b, b ≠ 0x00 → b ≠ 0x02 → ∃ t, exec (.cmd b) s = .next t ∧ t.dev.undef = true)
    ∧ ∀ b, ∃ t, exec (.chr b) s = .next t ∧ t.dev.undef = true

/-! ## The device rows of the opcode table -/

/-- R186 to R194: what each command byte does at a defined device in 4-bit mode; the driver is not touched. -/
def Obligations.DeviceCommandRows : Prop :=
  ∀ s : State, s.dev.defined → s.dev.if4 = true →
    (∃ m, exec .dClear s = .next { s with dev := { s.dev with cell := m, cur := none, wait := 4 } }
      ∧ ∀ row col, 1 ≤ col ∧ col ≤ s.dev.w.val → Memory.read (cellAddr row col) m = some 0x20)
    ∧ exec .d4bit s = .next { s with dev := { s.dev with wait := 2, cur := none } }
    ∧ exec .dAutoinc s = .next { s with dev := { s.dev with wait := 2, inc := true } }
    ∧ exec .dOnNocursor s = .next { s with dev := { s.dev with wait := 2, on := true } }
    ∧ exec .d2line s = .next { s with dev := { s.dev with wait := 2, lines2 := true } }
    ∧ (∀ off : BitVec 6, off.toNat < s.dev.w.val → exec (.dCursorRow1 off) s = .next
      { s with dev := { s.dev with
        wait := 2, cur := some ⟨.row1, off.toNat + 1⟩ } })
    ∧ (∀ off : BitVec 6, off.toNat < s.dev.w.val → s.dev.lines2 = true → exec (.dCursorRow2 off) s = .next
      { s with dev := { s.dev with
        wait := 2, cur := some ⟨.row2, off.toNat + 1⟩ } })
    ∧ (∀ off : BitVec 6, off.toNat < s.dev.w.val → s.dev.lines2 = false → exec (.dCursorRow2 off) s = .next
      { s with dev := { s.dev with
        wait := 2, undef := true } })
    ∧ ∀ b, exec (.dOther b) s = .next { s with dev := { s.dev with wait := 2, undef := true } }

/-- R195: what a character byte does at a defined device in 4-bit mode; the driver is not touched. -/
def Obligations.DeviceCharacterRow : Prop :=
  ∀ (s : State) (b : Byte), s.dev.defined → s.dev.if4 = true → s.dev.Wf →
    (∀ c, s.dev.cur = some c → c.col ≤ s.dev.w.val → ∃ m, exec (.dChar b) s = .next
      { s with dev := { s.dev with
        wait := 2, cell := m, cur := if s.dev.inc then some ⟨c.row, c.col + 1⟩ else none } }
      ∧ Memory.read (cellAddr c.row c.col) m = some b
      ∧ ∀ a, a ≠ cellAddr c.row c.col → Memory.read a m = Memory.read a s.dev.cell)
    ∧ ((s.dev.cur = none ∨ ∃ c, s.dev.cur = some c ∧ s.dev.w.val < c.col) →
      exec (.dChar b) s = .next { s with dev := { s.dev with wait := 2, undef := true } })

/-- The device rows at a settled device not yet in 4-bit mode, which sees their two pulses one by one (R188's
corner case and R184; that a whole byte is delivered so is log entry 2): `D_4BIT` puts it into 4-bit mode,
`D_OTHER` with byte 0x00 does nothing, and every other row leaves it undefined; the driver is not touched. -/
def Obligations.DeviceRowsBefore4bitMode : Prop :=
  ∀ s : State, s.dev.if4 = false → s.dev.en = 0 → s.dev.wait = 0 →
    (s.dev.defined →
      exec .d4bit s = .next { s with dev := { s.dev with if4 := true, ph := .hi, wait := 2, hold := 0 } })
    ∧ (s.dev.defined → exec (.dOther 0x00) s = .next { s with dev := { s.dev with hold := 0 } })
    ∧ ∀ (i : Instr) (rs : Bit) (b : Byte), i.wellFormed s.dev.w = true → encodeDevice i = some (rs, b) →
      ¬(rs = 0 ∧ (b = 0x00 ∨ b = 0x02)) →
        ∃ d, exec i s = .next { s with dev := d } ∧ d.undef = true

/-- R104, R185, R186: what a byte sent over the bus does to an aligned device is what the row it decodes to
does, the two nibbles latched before it and the settle delay after it, as long as the device stays defined. -/
def Obligations.BusByteIsItsDeviceRow : Prop :=
  ∀ (s : State) (rs : Bit) (b : Byte), s.dev.Aligned →
    ∃ t u, exec (.sendbyte rs b) s = .next t
      ∧ exec (decodeDevice s.dev.w rs b) { s with dev := { s.dev with
          hn := b.extractLsb 7 4, hrs := rs, hold := 0 } } = .next u
      ∧ t.dev.undef = u.dev.undef ∧ (t.dev.undef = false → t.dev = u.dev.delayTu 2)

/-! ## The alarm latch and the delay -/

/-- R221, R222: the four transitions of the latch, with their events, and the frame; an operand above 1 is no
request. -/
def Obligations.AlarmTransitions : Prop :=
  (∀ s : State, s.ms = 0 →
    (s.trig = 0 → ∃ d, exec (.alm 1) s = .next { s with
        buz := 0, trig := 1, tr := s.tr ++ [.buz 1, .s 5, .buz 0], rp := s.rp + 2, dev := d }
      ∧ (s.dev.defined → d = { s.dev with wait := 0, hold := 0 }))
    ∧ (s.trig = 1 → exec (.alm 1) s = .next { s with rp := s.rp + 2 })
    ∧ exec (.alm 0) s = .next { s with trig := 0, rp := s.rp + 2 })
    ∧ ∀ (v : Byte) (rest : List Byte), 1 < v.toNat →
      decodeRequest (0x20 :: v :: rest) = .reservedAlarmOperand v

/-- R223: over any sequence of operations that starts with the latch idle and the buzzer silent, the buzzer
pulses exactly once per maximal run of readings above the threshold, it is silent at the end, and the latch is
at the last reading; and after `ALM v` the latch is at `v` from any value. -/
def Obligations.AlarmPulsesOncePerRun : Prop :=
  (∀ (is : List Instr) (s : State), (∀ i ∈ is, IsOperation i) → s.ms = 0 → s.trig = 0 → s.buz = 0 →
    ∃ t evs, execAll is s = .next t ∧ t.tr = s.tr ++ evs
      ∧ buzzerPulses evs = runsOfOnes (alarmInputs is)
      ∧ t.trig = (alarmInputs is).getLast?.getD 0 ∧ t.buz = 0)
    ∧ ∀ (v : Bit) (s : State), s.ms = 0 → ∃ t, exec (.alm v) s = .next t ∧ t.trig = v

/-- R240, R181: `DLY` emits its one event, lowers the device's counters, and changes nothing else; a unit above
1 is no request. -/
def Obligations.DelayResult : Prop :=
  (∀ (k : Byte) (s : State), s.ms = 0 →
    (∃ d, exec (.dly .timeUnits k) s = .next { s with
        tr := s.tr ++ [.t k.toNat], rp := s.rp + 3, dev := d }
      ∧ (s.dev.defined → d = { s.dev with wait := s.dev.wait - k.toNat, hold := s.dev.hold - k.toNat }))
    ∧ (1 ≤ k.toNat → ∃ d, exec (.dly .seconds k) s = .next { s with
        tr := s.tr ++ [.s k.toNat], rp := s.rp + 3, dev := d }
      ∧ (s.dev.defined → d = { s.dev with wait := 0, hold := 0 }))
    ∧ (k = 0 → exec (.dly .seconds k) s = .next { s with tr := s.tr ++ [.s 0], rp := s.rp + 3 }))
    ∧ ∀ (u k : Byte) (rest : List Byte), 1 < u.toNat →
      decodeRequest (0x30 :: u :: k :: rest) = .reservedDelayUnit u

/-! ## The monitor iteration -/

/-- R243, R244: the comparison is strict, and a raw sample is over exactly from 164 on; the two samples at the
boundary, and that no raw sample gives exactly 80. -/
def Obligations.OverIsStrict : Prop :=
  (∀ t : Temperature, overT t = 1 ↔ 80 * t.den < t.num) ∧ (∀ r : BitVec 10, overRaw r = 1 ↔ 164 ≤ r.toNat)
    ∧ (temp 163).num * 1000 = 79544 * (temp 163).den ∧ (temp 164).num * 1000 = 80032 * (temp 164).den
    ∧ ∀ r : BitVec 10, (temp r).num ≠ 80 * (temp r).den

/-- R247: `fmt2` writes the nearest hundredth as integer part without leading zeros, point, two decimals; off
a tie it is the formula `(m + 5) div 10`. Which way a tie goes is not claimed (log entry 8). -/
def Obligations.TwoDecimalText : Prop :=
  (∀ t : Temperature, 0 < t.den → ∃ (h : Nat) (ip : List Byte),
    2 * h * t.den ≤ 200 * t.num + t.den ∧ 200 * t.num ≤ (2 * h + 1) * t.den
      ∧ IsNumeral ip ∧ numeralValue ip = h / 100
      ∧ fmt2 t = ip ++ [0x2E, BitVec.ofNat 8 (0x30 + h % 100 / 10), BitVec.ofNat 8 (0x30 + h % 10)])
    ∧ ∀ m : Nat, m % 10 ≠ 5 → hundredths ⟨m, 1000⟩ = (m + 5) / 10

/-- R245, R246: the two status texts, both of the row's width in the reference usage; the value text, of 12 to 14
characters for a raw sample, so that it never reaches column 15; and its two extremes. That with other columns per
row the status text is filled with spaces to the row's width is the model's choice (log entry 16). -/
def Obligations.TextsFitTheirRows : Prop :=
  (∀ t : Temperature, statusT Config.W t = if overT t = 1
      then [0x57, 0x41, 0x52, 0x4E, 0x49, 0x4E, 0x47, 0x3A, 0x20, 0x48, 0x4F, 0x54, 0x21, 0x20, 0x20, 0x20]
      else [0x54, 0x65, 0x6D, 0x70, 0x65, 0x72, 0x61, 0x74, 0x75, 0x72, 0x65, 0x3A, 0x20, 0x20, 0x20, 0x20])
    ∧ (∀ (w : Width) (t : Temperature), statusT w t =
      (if overT t = 1
        then [0x57, 0x41, 0x52, 0x4E, 0x49, 0x4E, 0x47, 0x3A, 0x20, 0x48, 0x4F, 0x54, 0x21] ++ spaces (w.val - 13)
        else [0x54, 0x65, 0x6D, 0x70, 0x65, 0x72, 0x61, 0x74, 0x75, 0x72, 0x65, 0x3A] ++ spaces (w.val - 12)))
    ∧ (∀ t : Temperature, valueT t = [0x54, 0x65, 0x6D, 0x70, 0x3A, 0x20] ++ fmt2 t ++ [0x20, 0x43])
    ∧ (∀ r : BitVec 10, (∀ w, status w r = statusT w (temp r)) ∧ value r = valueT (temp r)
      ∧ (status Config.W r).length = 16 ∧ 12 ≤ (value r).length ∧ (value r).length ≤ 14)
    ∧ value 0 = [0x54, 0x65, 0x6D, 0x70, 0x3A, 0x20, 0x30, 0x2E, 0x30, 0x30, 0x20, 0x43]
    ∧ value 1023 = [0x54, 0x65, 0x6D, 0x70, 0x3A, 0x20, 0x34, 0x39, 0x39, 0x2E, 0x32, 0x32, 0x20, 0x43]

/-- R111, R250: `MON r` is its eight requests one after the other, in bytes and in effect: eight steps over the
bytes the assembler writes for it, 52 and the value text's in the reference usage; and the assembler rejects a
sample above 1023. -/
def Obligations.MonitorIsItsExpansion : Prop :=
  (∀ (w : Width) (r : BitVec 10), expansion w r = [.cur 1 1, .str (status w r), .cur 2 1, .str (spaces w.val),
      .cur 2 1, .str (value r), .alm (overRaw r), .dly .seconds 1]
    ∧ encode w (.mon r) = (expansion w r).flatMap encodeRequest)
    ∧ (∀ r : BitVec 10, (encode Config.W (.mon r)).length = 52 + (value r).length)
    ∧ (∀ (r : BitVec 10) (s : State), exec (.mon r) s = execAll (expansion s.dev.w r) s
      ∧ ∀ rest, s.port = none → s.seq = .ready → s.ms = 0 →
        s.req.drop s.rp = encode s.dev.w (.mon r) ++ rest → steps 8 s = exec (.mon r) s)
    ∧ ∀ (w : Width) (n : Nat),
      asmMon w n = if n ≤ 1023 then some (encode w (.mon (BitVec.ofNat 10 n))) else none

/-- R253: the state after `MON r`, whatever the rows showed before, on a display whose rows hold the two texts, as
in the reference usage they always do; the byte latch, the configuration and every address that is no cell beside
it. With other columns per row it rests on the model's choice that the status text fills the row (log entry 16). -/
def Obligations.MonitorEndState : Prop :=
  ∀ (r : BitVec 10) (s : State), s.ms = 0 → s.buz = 0 → s.dev.defined → s.dev.Aligned →
    s.dev.lines2 = true → s.dev.inc = true →
    (s.dev.w = Config.W ∨ ((status s.dev.w r).length ≤ s.dev.w.val ∧ (value r).length ≤ s.dev.w.val)) →
    ∃ t, exec (.mon r) s = .next t
      ∧ rowText .row1 t.dev = some (status s.dev.w r)
      ∧ rowText .row2 t.dev = some (value r ++ spaces (s.dev.w.val - (value r).length))
      ∧ t.dev.cur = some ⟨.row2, 1 + (value r).length⟩
      ∧ t.dev.wait = 0 ∧ t.dev.undef = false ∧ t.trig = overRaw r ∧ t.buz = 0 ∧ t.rs = 1 ∧ t.db = 0x3
      ∧ t.en = 0 ∧ t.curByte = 0x43 ∧ t.curMode = 1
      ∧ t.dev.if4 = true ∧ t.dev.ph = .hi ∧ t.dev.lines2 = true ∧ t.dev.inc = true ∧ t.dev.on = s.dev.on
      ∧ ∀ a, cellOf s.dev.w a = none → Memory.read a t.dev.cell = Memory.read a s.dev.cell

/-- R313: the sum of the delays of each operation, by the spec's table, which for `MON` is of the reference usage;
with other columns per row its texts are as long as they are. -/
def Obligations.LeastTimes : Prop :=
  (∀ (i : Instr) (s : State), s.ms = 0 → ∃ t evs, exec i s = .next t ∧ t.tr = s.tr ++ evs
    ∧ timeUnits evs = leastUnits s.dev.w i ∧ secondsOf evs = leastSecs s.trig i)
    ∧ ∀ r : BitVec 10, leastUnits Config.W (.mon r) = 4 * (35 + (value r).length)
      ∧ 188 ≤ leastUnits Config.W (.mon r) ∧ leastUnits Config.W (.mon r) ≤ 196

/-! ## The whole machine -/

/-- The reset state meets the invariant, with the 16 columns per row of R6, and so does the state at power-on of a
display with any other number of columns. -/
def Obligations.ResetMeetsInvariant : Prop :=
  State.reset.Inv ∧ State.reset.dev.w.val = 16 ∧ State.reset = State.powerOn Config.W
    ∧ ∀ w : Width, (State.powerOn w).Inv

/-- R131, R223, R32, R38, R46, R66: every step, from every state that meets it, keeps the invariant. What it
says of `dev.en`, `dev.hold`, `dev.wait`, the cells and the cursor of a device that is undefined is the model's
choice (log entry 4): R197 lets a model stop applying the rules there. -/
def Obligations.StepKeepsInvariant : Prop :=
  ∀ s t : State, s.Inv → step s = .next t → t.Inv

/-- R39, R197, R277: no step clears `dev.undef` or `refused`, and none moves a refused sequencer on. -/
def Obligations.MarksAreSticky : Prop :=
  ∀ s t : State, step s = .next t →
    (s.dev.undef = true → t.dev.undef = true)
    ∧ (s.seq = .refused → t.refused = s.refused ∧ t.seq = .refused)

/-- R64, R39: the driver cannot see the device: two states that differ in `dev` only answer states that differ
in `dev` only, for every operation; for `MON`, whose texts are made for the columns per row, when those, which are
configuration, are the same. -/
def Obligations.DriverIsBlindToDevice : Prop :=
  ∀ (i : Instr) (s : State) (d : Dev), (d.w = s.dev.w ∨ ∀ r, i ≠ .mon r) → ∃ t d', exec i s = .next t
    ∧ exec i { s with dev := d } = .next { t with dev := d' }

/-- R20 to R25, R28, R40: who writes what. Only the operations that send bytes touch `RS`, `EN`, `DB` and the
byte latch; only `ALM` (and `MON`, by its `ALM`) touches `BUZ` and `TRIG`; no operation touches the stream, the
sequencer's status or its mark, or the columns per row (R6, D13: "fixed for a run"); and `rp` moves by the
operation's length. -/
def Obligations.WritersOfEachRegister : Prop :=
  ∀ (i : Instr) (s : State), ∃ t, exec i s = .next t
    ∧ t.req = s.req ∧ t.seq = s.seq ∧ t.refused = s.refused ∧ t.port = s.port ∧ t.dev.w = s.dev.w
    ∧ t.rp = s.rp + i.len s.dev.w
    ∧ ((∀ v, i ≠ .alm v) → (∀ r, i ≠ .mon r) → t.buz = s.buz ∧ t.trig = s.trig)
    ∧ (((∃ v, i = .alm v) ∨ (∃ u k, i = .dly u k) ∨ i.format = .dcmd ∨ i.format = .ddata) →
      t.rs = s.rs ∧ t.en = s.en ∧ t.db = s.db ∧ t.curByte = s.curByte ∧ t.curMode = s.curMode)

/-- R29: performing a request event by event ends in the state that performing it as one step gives; and on the
way `ms` is the number of its events that stand in the trace. The model's readings in it: what one step does
from the middle of a request, `ms` above 0 (log entry 11), and that `dev` is equal also where the device is
undefined (log entry 4). -/
def Obligations.MicroStepsMeetTheStep : Prop :=
  ∀ (s : State) (i : Instr) (as : List Action), s.port = none → s.seq = .ready →
    fetch s = .run i s → requestActions i s.trig s.dev.w = some as →
      microSteps ((eventsOf (resume s.ms as)).length + 1) s = step s
        ∧ (s.ms = 0 → ∀ k, k ≤ (eventsOf as).length →
          ∃ t, microSteps k s = .next t ∧ t.ms = k ∧ t.tr = s.tr ++ (eventsOf as).take k ∧ t.rp = s.rp)

/-- R62, R9: the addresses of the cells, that they lead back to the cells and only to them; the cell space reads
what was written and nothing else changes, and a write keeps the canonical form. -/
def Obligations.CellSpaceLaws : Prop :=
  (∀ col : Nat, cellAddr .row1 col = 0x80 + (col - 1) ∧ cellAddr .row2 col = 0xC0 + (col - 1))
    ∧ (∀ (w : Width) (row : Row) (col : Nat), 1 ≤ col ∧ col ≤ w.val →
      cellOf w (cellAddr row col) = some (row, col))
    ∧ (∀ (w : Width) (a : Nat) (row : Row) (col : Nat), cellOf w a = some (row, col) →
      (1 ≤ col ∧ col ≤ w.val) ∧ cellAddr row col = a)
    ∧ (∀ (w : Width) (a : Nat), ¬(0x80 ≤ a ∧ a < 0x80 + w.val) → ¬(0xC0 ≤ a ∧ a < 0xC0 + w.val) →
      cellOf w a = none)
    ∧ (∀ a : Nat, (cellOf Config.W a).isSome = true ↔ (0x80 ≤ a ∧ a ≤ 0x8F) ∨ (0xC0 ≤ a ∧ a ≤ 0xCF))
    ∧ ∀ (a : Nat) (v : Byte) (m : Memory), Memory.wf m = true →
      Memory.read a (Memory.write a v m) = some v
      ∧ (∀ b, b ≠ a → Memory.read b (Memory.write a v m) = Memory.read b m)
      ∧ Memory.wf (Memory.write a v m) = true

/-- R198: the text of a row is defined when no cell of it is unknown and the device is defined; it is shown
when the display is on. -/
def Obligations.ShownText : Prop :=
  (∀ (d : Dev) (row : Row), d.undef = true → rowText row d = none ∧ shown row d = none)
    ∧ (∀ (d : Dev) (row : Row) (text : List Byte), rowText row d = some text ↔
      (d.undef = false ∧ text.length = d.w.val ∧ ∀ k, k < d.w.val → d.cellAt row (k + 1) = text[k]?))
    ∧ ∀ (d : Dev) (row : Row), d.on = true → shown row d = rowText row d
end

