-- ==== Sys2Proof/Laws/Memory.lean ====
section
/-! SUPPORT. The laws of the cell space: read after write, and that every memory operation keeps the canonical
form. -/

namespace Sys2Proof.Machine

theorem Memory.read_write_same (a : Nat) (v : Byte) (m : Memory) :
    Memory.read a (Memory.write a v m) = some v := by
  induction m with
  | nil => simp [Memory.write, Memory.read]
  | cons c m ih =>
    obtain ⟨b, w⟩ := c
    simp only [Memory.write]
    split
    · simp [Memory.read]
    · split <;> simp_all [Memory.read]

theorem Memory.read_write_other {a b : Nat} (h : b ≠ a) (v : Byte) (m : Memory) :
    Memory.read b (Memory.write a v m) = Memory.read b m := by
  induction m with
  | nil => simp [Memory.write, Memory.read, h]
  | cons c m ih =>
    obtain ⟨x, w⟩ := c
    simp only [Memory.write]
    split
    · simp [Memory.read, h]
    · split
      · subst_vars; simp [Memory.read, h]
      · simp only [Memory.read, ih]

theorem Memory.wf_cons {a : Nat} {v : Byte} {m : Memory} :
    Memory.wf ((a, v) :: m) = true ↔ (∀ c ∈ m.head?, a < c.1) ∧ Memory.wf m = true := by
  cases m with
  | nil => simp [Memory.wf]
  | cons c m => obtain ⟨b, w⟩ := c; simp [Memory.wf]

theorem Memory.write_head? (a : Nat) (v : Byte) (m : Memory) :
    ∀ c ∈ (Memory.write a v m).head?, c.1 = a ∨ ∃ d ∈ m.head?, d.1 = c.1 := by
  cases m with
  | nil => simp [Memory.write]
  | cons d m =>
    obtain ⟨b, w⟩ := d
    simp only [Memory.write]
    split
    · simp
    · split <;> simp_all

/-- A write keeps the canonical form. -/
theorem Memory.write_wf (a : Nat) (v : Byte) {m : Memory} (h : Memory.wf m = true) :
    Memory.wf (Memory.write a v m) = true := by
  induction m with
  | nil => rfl
  | cons c m ih =>
    obtain ⟨b, w⟩ := c
    have hm := Memory.wf_cons.mp h
    simp only [Memory.write]
    split
    · simp [Memory.wf, *]
    · split
      · subst_vars; exact Memory.wf_cons.mpr hm
      · refine Memory.wf_cons.mpr ⟨?_, ih hm.2⟩
        intro c hc
        obtain h1 | ⟨d, hd, hdc⟩ := Memory.write_head? a v m c hc
        · omega
        · rw [← hdc]; exact hm.1 d hd

/-- A write at a cell's address leaves the space on cells. -/
theorem Memory.write_onCells {w : Width} {a : Nat} (ha : (cellOf w a).isSome = true) (v : Byte) {m : Memory}
    (h : Memory.onCells w m = true) : Memory.onCells w (Memory.write a v m) = true := by
  induction m with
  | nil => simp [Memory.write, Memory.onCells, ha]
  | cons c m ih =>
    obtain ⟨b, y⟩ := c
    have hc : (cellOf w b).isSome = true ∧ Memory.onCells w m = true := by
      simpa only [Memory.onCells, List.all_cons, Bool.and_eq_true] using h
    have hcons : ∀ {x : Nat} {y : Byte} {l : Memory}, (cellOf w x).isSome = true → Memory.onCells w l = true →
        Memory.onCells w ((x, y) :: l) = true := by
      intro x y l hx hl
      simp only [Memory.onCells, List.all_cons, Bool.and_eq_true]
      exact ⟨hx, hl⟩
    simp only [Memory.write]
    split
    · exact hcons ha h
    · split
      · exact hcons ha hc.2
      · exact hcons hc.1 (ih hc.2)

theorem blankCells_wf (w : Width) : Memory.wf (blankCells w) = true := by revert w; decide +kernel

theorem blankCells_onCells (w : Width) : Memory.onCells w (blankCells w) = true := by revert w; decide +kernel

/-- The memory of the reset state is canonical. -/
theorem reset_memory_wf : Memory.wf State.reset.dev.cell = true := rfl

/-- The address of a cell leads back to the cell (R62). -/
theorem cellOf_cellAddr {w : Width} {row : Row} {col : Nat} (h : 1 ≤ col ∧ col ≤ w.val) :
    cellOf w (cellAddr row col) = some (row, col) := by
  have hw := w.isLt
  cases row with
  | row1 =>
    have h1 : (Config.BASE_ROW1).toNat = 128 := rfl
    simp only [cellOf, cellAddr, rowBase, h1]
    rw [if_pos (by omega), show 128 + (col - 1) - 128 + 1 = col by omega]
  | row2 =>
    have h1 : (Config.BASE_ROW1).toNat = 128 := rfl
    have h2 : (Config.BASE_ROWX).toNat = 192 := rfl
    simp only [cellOf, cellAddr, rowBase, h1, h2]
    rw [if_neg (by omega), if_pos (by omega), show 192 + (col - 1) - 192 + 1 = col by omega]

end Sys2Proof.Machine
end

