-- ==== Sys2Proof/Laws/State.lean ====
section
/-! SUPPORT. One lemma per field and update: what each named operation leaves of the state, so that later
proofs need not unfold it. -/

namespace Sys2Proof.Machine

/-! ## Power-on with another width (R6, R45) -/

@[simp] theorem Dev.powerOn_w (w : Width) : (Dev.powerOn w).w = w := rfl
@[simp] theorem Dev.powerOn_cell (w : Width) : (Dev.powerOn w).cell = [] := rfl
@[simp] theorem Dev.powerOn_cur (w : Width) : (Dev.powerOn w).cur = none := rfl
@[simp] theorem State.powerOn_dev (w : Width) : (State.powerOn w).dev = Dev.powerOn w := rfl
theorem State.powerOn_reset : State.powerOn Config.W = State.reset := rfl

/-! ## Performing one event -/

@[simp] theorem emit_trig (e : Event) (s : State) : (emit e s).trig = s.trig := by cases e <;> rfl
@[simp] theorem emit_curByte (e : Event) (s : State) : (emit e s).curByte = s.curByte := by cases e <;> rfl
@[simp] theorem emit_curMode (e : Event) (s : State) : (emit e s).curMode = s.curMode := by cases e <;> rfl
@[simp] theorem emit_req (e : Event) (s : State) : (emit e s).req = s.req := by cases e <;> rfl
@[simp] theorem emit_seq (e : Event) (s : State) : (emit e s).seq = s.seq := by cases e <;> rfl
@[simp] theorem emit_rp (e : Event) (s : State) : (emit e s).rp = s.rp := by cases e <;> rfl
@[simp] theorem emit_ms (e : Event) (s : State) : (emit e s).ms = s.ms := by cases e <;> rfl
@[simp] theorem emit_refused (e : Event) (s : State) : (emit e s).refused = s.refused := by cases e <;> rfl
@[simp] theorem emit_port (e : Event) (s : State) : (emit e s).port = s.port := by cases e <;> rfl
@[simp] theorem emit_tr (e : Event) (s : State) : (emit e s).tr = s.tr ++ [e] := by cases e <;> rfl
@[simp] theorem emit_dev (e : Event) (s : State) : (emit e s).dev = s.dev.react s.rs s.db e := by
  cases e <;> rfl

@[simp] theorem emit_rs_rs (v : Bit) (s : State) : (emit (.rs v) s).rs = v := rfl
@[simp] theorem emit_rs_en (v : Bit) (s : State) : (emit (.rs v) s).en = s.en := rfl
@[simp] theorem emit_rs_db (v : Bit) (s : State) : (emit (.rs v) s).db = s.db := rfl
@[simp] theorem emit_rs_buz (v : Bit) (s : State) : (emit (.rs v) s).buz = s.buz := rfl
@[simp] theorem emit_en_rs (v : Bit) (s : State) : (emit (.en v) s).rs = s.rs := rfl
@[simp] theorem emit_en_en (v : Bit) (s : State) : (emit (.en v) s).en = v := rfl
@[simp] theorem emit_en_db (v : Bit) (s : State) : (emit (.en v) s).db = s.db := rfl
@[simp] theorem emit_en_buz (v : Bit) (s : State) : (emit (.en v) s).buz = s.buz := rfl
@[simp] theorem emit_db_rs (n : Nibble) (s : State) : (emit (.db n) s).rs = s.rs := rfl
@[simp] theorem emit_db_en (n : Nibble) (s : State) : (emit (.db n) s).en = s.en := rfl
@[simp] theorem emit_db_db (n : Nibble) (s : State) : (emit (.db n) s).db = n := rfl
@[simp] theorem emit_db_buz (n : Nibble) (s : State) : (emit (.db n) s).buz = s.buz := rfl
@[simp] theorem emit_buz_rs (v : Bit) (s : State) : (emit (.buz v) s).rs = s.rs := rfl
@[simp] theorem emit_buz_en (v : Bit) (s : State) : (emit (.buz v) s).en = s.en := rfl
@[simp] theorem emit_buz_db (v : Bit) (s : State) : (emit (.buz v) s).db = s.db := rfl
@[simp] theorem emit_buz_buz (v : Bit) (s : State) : (emit (.buz v) s).buz = v := rfl
@[simp] theorem emit_t_rs (k : Nat) (s : State) : (emit (.t k) s).rs = s.rs := rfl
@[simp] theorem emit_t_en (k : Nat) (s : State) : (emit (.t k) s).en = s.en := rfl
@[simp] theorem emit_t_db (k : Nat) (s : State) : (emit (.t k) s).db = s.db := rfl
@[simp] theorem emit_t_buz (k : Nat) (s : State) : (emit (.t k) s).buz = s.buz := rfl
@[simp] theorem emit_s_rs (k : Nat) (s : State) : (emit (.s k) s).rs = s.rs := rfl
@[simp] theorem emit_s_en (k : Nat) (s : State) : (emit (.s k) s).en = s.en := rfl
@[simp] theorem emit_s_db (k : Nat) (s : State) : (emit (.s k) s).db = s.db := rfl
@[simp] theorem emit_s_buz (k : Nat) (s : State) : (emit (.s k) s).buz = s.buz := rfl

/-! ## One micro-operation -/

@[simp] theorem act_ev (e : Event) (s : State) : act (.ev e) s = emit e s := rfl
@[simp] theorem act_req (a : Action) (s : State) : (act a s).req = s.req := by cases a <;> simp [act]
@[simp] theorem act_seq (a : Action) (s : State) : (act a s).seq = s.seq := by cases a <;> simp [act]
@[simp] theorem act_rp (a : Action) (s : State) : (act a s).rp = s.rp := by cases a <;> simp [act]
@[simp] theorem act_ms (a : Action) (s : State) : (act a s).ms = s.ms := by cases a <;> simp [act]
@[simp] theorem act_refused (a : Action) (s : State) : (act a s).refused = s.refused := by
  cases a <;> simp [act]
@[simp] theorem act_port (a : Action) (s : State) : (act a s).port = s.port := by cases a <;> simp [act]
@[simp] theorem act_tr (a : Action) (s : State) : (act a s).tr = s.tr ++ eventsOf [a] := by
  cases a <;> simp [act, eventsOf]

/-! ## The end of a request -/

@[simp] theorem finish_rs (n : Nat) (s : State) : (finish n s).rs = s.rs := rfl
@[simp] theorem finish_en (n : Nat) (s : State) : (finish n s).en = s.en := rfl
@[simp] theorem finish_db (n : Nat) (s : State) : (finish n s).db = s.db := rfl
@[simp] theorem finish_buz (n : Nat) (s : State) : (finish n s).buz = s.buz := rfl
@[simp] theorem finish_trig (n : Nat) (s : State) : (finish n s).trig = s.trig := rfl
@[simp] theorem finish_curByte (n : Nat) (s : State) : (finish n s).curByte = s.curByte := rfl
@[simp] theorem finish_curMode (n : Nat) (s : State) : (finish n s).curMode = s.curMode := rfl
@[simp] theorem finish_req (n : Nat) (s : State) : (finish n s).req = s.req := rfl
@[simp] theorem finish_seq (n : Nat) (s : State) : (finish n s).seq = s.seq := rfl
@[simp] theorem finish_rp (n : Nat) (s : State) : (finish n s).rp = s.rp + n := rfl
@[simp] theorem finish_ms (n : Nat) (s : State) : (finish n s).ms = 0 := rfl
@[simp] theorem finish_tr (n : Nat) (s : State) : (finish n s).tr = s.tr := rfl
@[simp] theorem finish_refused (n : Nat) (s : State) : (finish n s).refused = s.refused := rfl
@[simp] theorem finish_dev (n : Nat) (s : State) : (finish n s).dev = s.dev := rfl
@[simp] theorem finish_port (n : Nat) (s : State) : (finish n s).port = s.port := rfl

/-! ## Micro-operations in order -/

@[simp] theorem runActions_nil (s : State) : runActions [] s = s := rfl
@[simp] theorem runActions_cons (a : Action) (as : List Action) (s : State) :
    runActions (a :: as) s = runActions as (act a s) := rfl

theorem runActions_append (as bs : List Action) (s : State) :
    runActions (as ++ bs) s = runActions bs (runActions as s) := by
  induction as generalizing s with
  | nil => rfl
  | cons a as ih => exact ih (act a s)

@[simp] theorem runActions_req (as : List Action) (s : State) : (runActions as s).req = s.req := by
  induction as generalizing s <;> simp_all
@[simp] theorem runActions_seq (as : List Action) (s : State) : (runActions as s).seq = s.seq := by
  induction as generalizing s <;> simp_all
@[simp] theorem runActions_rp (as : List Action) (s : State) : (runActions as s).rp = s.rp := by
  induction as generalizing s <;> simp_all
@[simp] theorem runActions_ms (as : List Action) (s : State) : (runActions as s).ms = s.ms := by
  induction as generalizing s <;> simp_all
@[simp] theorem runActions_refused (as : List Action) (s : State) :
    (runActions as s).refused = s.refused := by
  induction as generalizing s <;> simp_all
@[simp] theorem runActions_port (as : List Action) (s : State) : (runActions as s).port = s.port := by
  induction as generalizing s <;> simp_all

theorem eventsOf_cons (a : Action) (as : List Action) : eventsOf (a :: as) = eventsOf [a] ++ eventsOf as := by
  cases a <;> rfl

@[simp] theorem eventsOf_append (as bs : List Action) : eventsOf (as ++ bs) = eventsOf as ++ eventsOf bs := by
  induction as with
  | nil => rfl
  | cons a as ih => rw [List.cons_append, eventsOf_cons, ih, eventsOf_cons a as, List.append_assoc]

/-- A run appends its event list to the trace and nothing else (R30). -/
@[simp] theorem runActions_tr (as : List Action) (s : State) :
    (runActions as s).tr = s.tr ++ eventsOf as := by
  induction as generalizing s with
  | nil => simp [eventsOf]
  | cons a as ih => rw [runActions_cons, ih, act_tr, eventsOf_cons a as, List.append_assoc]

/-! ## Performing a request -/

@[simp] theorem resume_zero (as : List Action) : resume 0 as = as := by cases as <;> rfl

theorem perform_of_ms {s : State} (h : s.ms = 0) (n : Nat) (as : List Action) :
    perform n as s = finish n (runActions as s) := by simp [perform, h]

@[simp] theorem perform_req (n : Nat) (as : List Action) (s : State) : (perform n as s).req = s.req := by
  simp [perform]
@[simp] theorem perform_seq (n : Nat) (as : List Action) (s : State) : (perform n as s).seq = s.seq := by
  simp [perform]
@[simp] theorem perform_rp (n : Nat) (as : List Action) (s : State) : (perform n as s).rp = s.rp + n := by
  simp [perform]
@[simp] theorem perform_ms (n : Nat) (as : List Action) (s : State) : (perform n as s).ms = 0 := by
  simp [perform]
@[simp] theorem perform_refused (n : Nat) (as : List Action) (s : State) :
    (perform n as s).refused = s.refused := by simp [perform]
@[simp] theorem perform_port (n : Nat) (as : List Action) (s : State) : (perform n as s).port = s.port := by
  simp [perform]
@[simp] theorem perform_tr (n : Nat) (as : List Action) (s : State) :
    (perform n as s).tr = s.tr ++ eventsOf (resume s.ms as) := by simp [perform]

end Sys2Proof.Machine
end

