-- ==== Sys2Proof/Laws/Device.lean ====
section
/-! SUPPORT. What the device makes of a byte: one lemma per shared operation, cited in the place of unfolding
it. -/

namespace Sys2Proof.Machine

/-- The halves of a byte give the byte back (R8, R104). -/
@[simp] theorem joinNibbles_halves (b : Byte) : joinNibbles (hiNibble b) (loNibble b) = b := by
  revert b; decide +kernel

/-! ## `SENDBYTE` as a whole -/

/-- The ten events of `SENDBYTE` (R132). -/
theorem eventsOf_sendByte (m : Bit) (b : Byte) :
    eventsOf (sendByteActions m b) =
      [.rs m, .db (hiNibble b), .en 1, .t 1, .en 0, .db (loNibble b), .en 1, .t 1, .en 0, .t 2] := rfl

/-- Everything `SENDBYTE` does (R132). -/
theorem runActions_sendByte (m : Bit) (b : Byte) (s : State) :
    runActions (sendByteActions m b) s =
      { s with
        rs := m, en := 0, db := loNibble b, curByte := b, curMode := m
        tr := s.tr ++ eventsOf (sendByteActions m b)
        dev := s.dev.byteSent m b } := by
  simp [sendByteActions, pulseActions, act, emit, writeRs, writeDb, writeEn, delayTu, eventsOf, Dev.react,
    Dev.byteSent, Dev.pulsed]

/-! ## The edges and the pulses -/

theorem Dev.rise_of_low {d : Dev} (h : d.en = 0) :
    d.rise = { d with undef := d.undef || decide (0 < d.wait), hold := Config.HOLD, en := 1 } := by
  simp [Dev.rise, h]

/-- A pulse on a device that saw `EN` low: the wait is checked, the hold is served, the pair is taken
(R182, R181, R183). -/
theorem Dev.pulsed_of_low {d : Dev} (h : d.en = 0) (rs : Bit) (n : Nibble) :
    d.pulsed rs n =
      Dev.takePair rs n
        { d with wait := d.wait - 1, hold := 0, en := 0, undef := d.undef || decide (0 < d.wait) } := by
  simp [Dev.pulsed, Dev.rise_of_low h, Dev.delayTu, Dev.fall, Config.HOLD]

/-- A byte sent to an aligned device is received whole (R185), and what is left of the wait after the settle
delay is what the byte asks for beyond `SETTLE`. -/
theorem Dev.byteSent_of_aligned {d : Dev} (h : d.Aligned) (rs : Bit) (b : Byte) :
    d.byteSent rs b =
      (Dev.receive rs b { d with hn := hiNibble b, hrs := rs, hold := 0 }).delayTu Config.SETTLE := by
  obtain ⟨h4, hp, hw, he⟩ := h
  obtain ⟨w, wait, hold, en, if4, ph, hn, hrs, l2, on, inc, cell, cur, undef⟩ := d
  simp only at h4 hp hw he
  subst h4 hp hw he
  simp [Dev.byteSent, Dev.pulsed_of_low, Dev.takePair, Dev.takePairIn4bit]

/-! ## What never changes back -/

/-- `dev.undef` is sticky under the reactions to a received byte (R197). -/
theorem Dev.receive_undef {rs : Bit} {b : Byte} {d : Dev} (h : d.undef = true) :
    (Dev.receive rs b d).undef = true := by
  unfold Dev.receive Dev.receiveCommand Dev.receiveChar Dev.putChar Dev.cursorRow2
  repeat' split
  all_goals simp_all [Dev.settle, Dev.clear, Dev.force4bit, Dev.autoInc, Dev.displayOn, Dev.twoLines,
    Dev.cursorRow1, Dev.markUndef]

theorem Dev.takePair_undef {rs : Bit} {n : Nibble} {d : Dev} (h : d.undef = true) :
    (d.takePair rs n).undef = true := by
  unfold Dev.takePair Dev.takePairIn4bit Dev.takePairBefore4bit
  repeat' split
  all_goals first
    | exact Dev.receive_undef h
    | simp_all [Dev.markUndef]

/-- `dev.undef` is sticky under every event (R39, R197). -/
theorem Dev.react_undef {rs : Bit} {n : Nibble} {e : Event} {d : Dev} (h : d.undef = true) :
    (d.react rs n e).undef = true := by
  cases e with
  | rs v => exact h
  | db v => exact h
  | buz v => exact h
  | en v =>
    simp only [Dev.react, Dev.fall, Dev.rise]
    repeat' split
    all_goals first
      | exact Dev.takePair_undef (by simp [h])
      | simp [h]
  | t k => exact h
  | s k => simp only [Dev.react, Dev.delayS]; split <;> exact h

/-- A pulse keeps `dev.undef` (R197). -/
theorem Dev.pulsed_undef {rs : Bit} {n : Nibble} {d : Dev} (h : d.undef = true) :
    (d.pulsed rs n).undef = true := by
  have h1 : d.rise.undef = true := by
    simpa [Dev.react] using Dev.react_undef (rs := rs) (n := n) (e := .en 1) h
  have h2 : (d.rise.delayTu Config.HOLD).undef = true := h1
  exact Dev.react_undef (rs := rs) (n := n) (e := .en 0) h2

/-- A byte sent keeps `dev.undef` (R197). -/
theorem Dev.byteSent_undef {rs : Bit} {b : Byte} {d : Dev} (h : d.undef = true) :
    (d.byteSent rs b).undef = true :=
  Dev.pulsed_undef (Dev.pulsed_undef h)

/-- A text sent keeps `dev.undef` (R197). -/
theorem Dev.textSent_undef {text : List Byte} {d : Dev} (h : d.undef = true) :
    (text.foldl (fun d b => d.byteSent 1 b) d).undef = true := by
  induction text generalizing d with
  | nil => exact h
  | cons b bs ih => exact ih (Dev.byteSent_undef h)

/-! ## Too early -/

/-- A pulse before the device has settled makes it undefined (R182). -/
theorem Dev.pulsed_of_wait {rs : Bit} {n : Nibble} {d : Dev} (he : d.en = 0) (hw : 0 < d.wait) :
    (d.pulsed rs n).undef = true := by
  rw [Dev.pulsed_of_low he]
  exact Dev.takePair_undef (by simp [hw])

/-- A byte sent before the device has settled makes it undefined (R182, R307). -/
theorem Dev.byteSent_of_wait {rs : Bit} {b : Byte} {d : Dev} (he : d.en = 0) (hw : 0 < d.wait) :
    (d.byteSent rs b).undef = true :=
  Dev.pulsed_undef (Dev.pulsed_of_wait he hw)

/-! ## `W` is fixed for a run (D13) -/

theorem Dev.receive_w (rs : Bit) (b : Byte) (d : Dev) : (Dev.receive rs b d).w = d.w := by
  unfold Dev.receive Dev.receiveCommand Dev.receiveChar Dev.putChar Dev.cursorRow2
  repeat' split
  all_goals rfl

theorem Dev.takePair_w (rs : Bit) (n : Nibble) (d : Dev) : (d.takePair rs n).w = d.w := by
  unfold Dev.takePair Dev.takePairIn4bit Dev.takePairBefore4bit
  repeat' split
  all_goals first
    | exact Dev.receive_w rs _ _
    | rfl

/-- No event changes the columns per row. -/
@[simp] theorem Dev.react_w (rs : Bit) (n : Nibble) (e : Event) (d : Dev) : (d.react rs n e).w = d.w := by
  unfold Dev.react Dev.fall Dev.rise Dev.delayS
  repeat' split
  all_goals first
    | exact Dev.takePair_w rs n _
    | rfl

@[simp] theorem Dev.pulsed_w (rs : Bit) (n : Nibble) (d : Dev) : (d.pulsed rs n).w = d.w := by
  have h1 : d.rise.w = d.w := by unfold Dev.rise; split <;> rfl
  have h2 := Dev.react_w rs n (.en 0) (d.rise.delayTu Config.HOLD)
  exact h2.trans h1

@[simp] theorem Dev.byteSent_w (rs : Bit) (b : Byte) (d : Dev) : (d.byteSent rs b).w = d.w := by
  show ((d.pulsed rs _).pulsed rs _).w = d.w
  rw [Dev.pulsed_w, Dev.pulsed_w]

/-! ## What a received byte and a pulse leave -/

/-- Receiving a byte leaves the lines' side and the phase alone, and asks for at most 4 time units (R186, R187,
R195). -/
theorem Dev.receive_rest (rs : Bit) (b : Byte) (d : Dev) :
    (Dev.receive rs b d).en = d.en ∧ (Dev.receive rs b d).hold = d.hold ∧ (Dev.receive rs b d).ph = d.ph
      ∧ (Dev.receive rs b d).wait ≤ 4 := by
  unfold Dev.receive Dev.receiveCommand Dev.receiveChar Dev.putChar Dev.cursorRow2
  repeat' split
  all_goals simp_all [Dev.settle, Dev.clear, Dev.force4bit, Dev.autoInc, Dev.displayOn, Dev.twoLines,
    Dev.cursorRow1, Dev.markUndef, Config.SETTLE, Config.CLEAR_SETTLE]

/-- A command byte other than clear writes no cell (R188 to R194). -/
theorem Dev.receiveCommand_cell {b : Byte} {d : Dev} (h : b ≠ 0x01) :
    (d.receiveCommand b).cell = d.cell := by
  have hrow2 : ∀ o (d : Dev), (d.cursorRow2 o).cell = d.cell := by
    intro o d; unfold Dev.cursorRow2; split <;> rfl
  simp only [Dev.receiveCommand, if_neg h]
  repeat' split
  all_goals first
    | rfl
    | exact hrow2 _ _

/-- A character with the cursor on a column of the row (R195). -/
theorem Dev.putChar_of_column {d : Dev} {c : Cursor} (hc : d.cur = some c) (h : 1 ≤ c.col ∧ c.col ≤ d.w.val)
    (b : Byte) : d.putChar b = { d with
      cell := Memory.write (cellAddr c.row c.col) b d.cell
      cur := if d.inc then some ⟨c.row, c.col + 1⟩ else none } := by
  simp [Dev.putChar, hc, h]

/-- A character with the cursor on no column of the row, or unknown (R195). -/
theorem Dev.putChar_of_no_column {d : Dev}
    (h : ∀ c, d.cur = some c → ¬(1 ≤ c.col ∧ c.col ≤ d.w.val)) (b : Byte) : d.putChar b = d.markUndef := by
  unfold Dev.putChar
  split
  · rw [if_neg (h _ ‹_›)]
  · rfl

/-- A character byte writes at most the cell under the cursor (R195). -/
theorem Dev.receiveChar_read {a : Nat} {b : Byte} {d : Dev}
    (h : d.cur.map (fun c => cellAddr c.row c.col) ≠ some a) :
    Memory.read a (d.receiveChar b).cell = Memory.read a d.cell := by
  by_cases hk : ∃ c, d.cur = some c ∧ 1 ≤ c.col ∧ c.col ≤ d.w.val
  · obtain ⟨c, hc, hcol⟩ := hk
    rw [Dev.receiveChar, Dev.putChar_of_column (d := d.settle) hc hcol]
    refine Memory.read_write_other ?_ _ _
    rintro rfl; simp [hc] at h
  · rw [Dev.receiveChar, Dev.putChar_of_no_column (d := d.settle) fun c hc hcol => hk ⟨c, hc, hcol⟩]
    rfl

/-- A pair latched before 4-bit mode writes no cell (R184). -/
theorem Dev.takePairBefore4bit_rest (rs : Bit) (n : Nibble) (d : Dev) :
    (d.takePairBefore4bit rs n).cell = d.cell ∧ (d.takePairBefore4bit rs n).en = d.en
      ∧ (d.takePairBefore4bit rs n).hold = d.hold ∧ (d.takePairBefore4bit rs n).cur = d.cur := by
  unfold Dev.takePairBefore4bit
  repeat' split
  all_goals exact ⟨rfl, rfl, rfl, rfl⟩

/-- Taking a pair leaves the lines' side alone and asks for at most 20 time units if no more was asked before
(R184, R185). -/
theorem Dev.takePair_rest (rs : Bit) (n : Nibble) {d : Dev} (hw : d.wait ≤ 20) :
    (d.takePair rs n).en = d.en ∧ (d.takePair rs n).hold = d.hold ∧ (d.takePair rs n).wait ≤ 20 := by
  unfold Dev.takePair Dev.takePairIn4bit Dev.takePairBefore4bit
  repeat' split
  all_goals first
    | (obtain ⟨h1, h2, -, h4⟩ := Dev.receive_rest rs (joinNibbles d.hn n) { d with ph := .hi }
       exact ⟨h1, h2, by omega⟩)
    | exact ⟨rfl, rfl, by first | exact hw | simp [Config.SETTLE]⟩

/-- A pulse on a device that saw `EN` low leaves it low, the hold served, and at most 20 time units to wait. -/
theorem Dev.pulsed_rest (rs : Bit) (n : Nibble) {d : Dev} (he : d.en = 0) (hw : d.wait ≤ 20) :
    (d.pulsed rs n).en = 0 ∧ (d.pulsed rs n).hold = 0 ∧ (d.pulsed rs n).wait ≤ 20 := by
  rw [Dev.pulsed_of_low he]
  exact Dev.takePair_rest rs n (by simp only; omega)

/-! ## The canonical form of the cell space -/

theorem Dev.markUndef_wf {d : Dev} (h : d.Wf) : d.markUndef.Wf := ⟨h.mem, h.cells, h.cur⟩

theorem Dev.putChar_wf {b : Byte} {d : Dev} (h : d.Wf) : (d.putChar b).Wf := by
  unfold Dev.putChar
  split
  · rename_i c hc
    split
    · rename_i hcol
      refine ⟨Memory.write_wf _ _ h.mem,
        Memory.write_onCells (by rw [cellOf_cellAddr hcol]; rfl) _ h.cells, ?_⟩
      intro c' h'
      simp only at h'
      split at h' <;> simp_all
      subst h'
      exact ⟨by simp, by simp only; omega⟩
    · exact Dev.markUndef_wf h
  · exact Dev.markUndef_wf h

theorem row1Offset_lt {w : Width} {b : Byte} (h : isRow1Cursor w b = true) : row1Offset b < w.val := by
  simp only [isRow1Cursor, decide_eq_true_eq] at h
  simp only [row1Offset]; omega

theorem row2Offset_lt {w : Width} {b : Byte} (h : isRow2Cursor w b = true) : row2Offset b < w.val := by
  simp only [isRow2Cursor, decide_eq_true_eq] at h
  simp only [row2Offset]; omega

theorem Dev.cursorRow1_wf {d : Dev} {off : Nat} (h : d.Wf) (ho : off < d.w.val) : (d.cursorRow1 off).Wf := by
  refine ⟨h.mem, h.cells, ?_⟩
  intro c hc
  simp only [Dev.cursorRow1, Option.some.injEq] at hc
  subst hc; exact ⟨by simp, by simp only [Dev.cursorRow1]; omega⟩

theorem Dev.cursorRow2_wf {d : Dev} {off : Nat} (h : d.Wf) (ho : off < d.w.val) : (d.cursorRow2 off).Wf := by
  unfold Dev.cursorRow2
  split
  · refine ⟨h.mem, h.cells, ?_⟩
    intro c hc
    simp only [Option.some.injEq] at hc
    subst hc; exact ⟨by simp, by simp only; omega⟩
  · exact Dev.markUndef_wf h

theorem Dev.settle_wf {d : Dev} (h : d.Wf) : d.settle.Wf := ⟨h.mem, h.cells, h.cur⟩

theorem Dev.clear_wf {d : Dev} : d.clear.Wf :=
  ⟨blankCells_wf _, blankCells_onCells _, by intro c hc; simp [Dev.clear] at hc⟩

theorem Dev.force4bit_wf {d : Dev} (h : d.Wf) : d.force4bit.Wf :=
  ⟨h.mem, h.cells, by intro c hc; simp [Dev.force4bit] at hc⟩

theorem Dev.receive_wf {rs : Bit} {b : Byte} {d : Dev} (h : d.Wf) : (Dev.receive rs b d).Wf := by
  have hs := Dev.settle_wf h
  unfold Dev.receive
  split
  · unfold Dev.receiveCommand
    repeat' split
    · exact Dev.clear_wf
    · exact Dev.force4bit_wf hs
    · exact ⟨hs.mem, hs.cells, hs.cur⟩
    · exact ⟨hs.mem, hs.cells, hs.cur⟩
    · exact ⟨hs.mem, hs.cells, hs.cur⟩
    · exact Dev.cursorRow1_wf hs (row1Offset_lt ‹_›)
    · exact Dev.cursorRow2_wf hs (row2Offset_lt ‹_›)
    · exact Dev.markUndef_wf hs
  · exact Dev.putChar_wf hs

theorem Dev.takePair_wf {rs : Bit} {n : Nibble} {d : Dev} (h : d.Wf) : (d.takePair rs n).Wf := by
  unfold Dev.takePair Dev.takePairIn4bit Dev.takePairBefore4bit
  repeat' split
  all_goals first
    | exact Dev.receive_wf ⟨h.mem, h.cells, h.cur⟩
    | exact ⟨h.mem, h.cells, h.cur⟩

/-- Every event keeps the cell space canonical and the cursor in its range. -/
theorem Dev.react_wf {rs : Bit} {n : Nibble} {e : Event} {d : Dev} (h : d.Wf) : (d.react rs n e).Wf := by
  simp only [Dev.react, Dev.fall, Dev.rise, Dev.delayTu, Dev.delayS]
  repeat' split
  all_goals first
    | exact Dev.takePair_wf ⟨h.mem, h.cells, h.cur⟩
    | exact ⟨h.mem, h.cells, h.cur⟩

end Sys2Proof.Machine
end

