-- ==== Sys2Proof/Laws/Requests.lean ====
section
/-! SUPPORT. What the micro-operations of each request do, once per request: the state they end in, which of
them leave which registers alone, and that `dev.undef` is never cleared. -/

namespace Sys2Proof.Machine

/-! ## The display requests -/

/-- Everything the micro-operations of `INIT` do: five bytes between two delays (R150). -/
theorem runActions_init (s : State) : runActions initActions s =
    { s with
      rs := 0, db := 0x1, en := 0, curMode := 0, curByte := 0x01
      tr := s.tr ++ eventsOf initActions
      dev := ((((((s.dev.delayTu Config.POWERON).byteSent 0 0x02).byteSent 0 0x28).byteSent 0 0x0C).byteSent 0
        0x06).byteSent 0 0x01).delayTu Config.CLEAR_SETTLE } := by
  simp only [initActions, runActions_append, runActions_cons, runActions_nil, runActions_sendByte, act, emit,
    delayTu, eventsOf_append, eventsOf]
  simp
  decide

/-- A column outside 1 to `W` marks the device before the byte is sent, and nothing else (R156, R157). -/
theorem runActions_cur (w : Width) (row col : Byte) (s : State) : runActions (curActions w row col) s =
    runActions (sendByteActions 0 (cursorByte row col))
      { s with dev := if columnInRange w col then s.dev else s.dev.markUndef } := by
  unfold curActions; split <;> rfl

/-- What a text does to the state: the device sees the characters in order, and the registers are those of the
last one (R158). -/
theorem runActions_str (text : List Byte) (s : State) : runActions (strActions text) s =
    { s with
      rs := if text = [] then s.rs else 1
      db := if text = [] then s.db else loNibble (text.getLast?.getD 0)
      en := if text = [] then s.en else 0
      curMode := if text = [] then s.curMode else 1
      curByte := text.getLast?.getD s.curByte
      tr := s.tr ++ eventsOf (strActions text)
      dev := text.foldl (fun d b => d.byteSent 1 b) s.dev } := by
  induction text generalizing s with
  | nil => simp [strActions, eventsOf]
  | cons b bs ih =>
    have h : strActions (b :: bs) = sendByteActions 1 b ++ strActions bs := rfl
    rw [h, runActions_append, ih, runActions_sendByte, eventsOf_append]
    cases bs with
    | nil => simp
    | cons c cs =>
      have hl : (c :: cs).getLast? = some ((c :: cs).getLast (by simp)) :=
        List.getLast?_eq_some_getLast (by simp)
      simp [List.getLast?_cons_cons, hl]

/-! ## The alarm and the delay -/

/-- What the micro-operations of `ALM` do from the latch's own value (R222). -/
theorem runActions_alm (v : Bit) (s : State) : runActions (almActions v s.trig) s =
    if alarmStarts s.trig v then
      { s with
        buz := 0, trig := 1, tr := s.tr ++ [.buz 1, .s 5, .buz 0]
        dev := { s.dev with wait := 0, hold := 0 } }
    else if v = 0 then { s with trig := 0 }
    else s := by
  unfold almActions
  split
  · simp [act, emit, writeBuz, delayS, Dev.delayS, Config.BUZZ_HOLD]
  · split <;> simp [act]

/-- What the micro-operation of `DLY` does in time units (R240). -/
theorem runActions_dly_timeUnits (k : Byte) (s : State) : runActions (dlyActions .timeUnits k) s =
    { s with tr := s.tr ++ [.t k.toNat], dev := s.dev.delayTu k.toNat } := rfl

/-- What the micro-operation of `DLY` does in seconds (R240). -/
theorem runActions_dly_seconds (k : Byte) (s : State) : runActions (dlyActions .seconds k) s =
    { s with tr := s.tr ++ [.s k.toNat], dev := s.dev.delayS k.toNat } := rfl

/-! ## What never changes back -/

theorem act_undef {a : Action} {s : State} (h : s.dev.undef = true) : (act a s).dev.undef = true := by
  cases a with
  | ev e => rw [act_ev, emit_dev]; exact Dev.react_undef h
  | latch m b => exact h
  | setTrig v => exact h
  | markUndef => rfl

/-- No micro-operation clears `dev.undef` (R39, R277). -/
theorem runActions_undef {as : List Action} {s : State} (h : s.dev.undef = true) :
    (runActions as s).dev.undef = true := by
  induction as generalizing s with
  | nil => exact h
  | cons a as ih => exact ih (act_undef h)

theorem perform_undef {n : Nat} {as : List Action} {s : State} (h : s.dev.undef = true) :
    (perform n as s).dev.undef = true :=
  runActions_undef (as := resume s.ms as) h

/-- No row at the device clears `dev.undef`, if the row's own effect does not. -/
theorem Dev.deliver_undef {rs : Bit} {b : Byte} {f : Dev → Dev}
    (hf : ∀ d : Dev, d.undef = true → (f d).undef = true) {d : Dev} (h : d.undef = true) :
    (d.deliver rs b f).undef = true := by
  unfold Dev.deliver
  split
  · exact hf _ h
  · exact Dev.pulsed_undef (Dev.pulsed_undef h)

/-! ## `W` is fixed for a run -/

theorem act_w (a : Action) (s : State) : (act a s).dev.w = s.dev.w := by
  cases a with
  | ev e => rw [act_ev, emit_dev, Dev.react_w]
  | latch m b => rfl
  | setTrig v => rfl
  | markUndef => rfl

/-- No micro-operation changes the columns per row (R6, D13). -/
@[simp] theorem runActions_w (as : List Action) (s : State) : (runActions as s).dev.w = s.dev.w := by
  induction as generalizing s with
  | nil => rfl
  | cons a as ih => rw [runActions_cons, ih, act_w]

@[simp] theorem perform_w (n : Nat) (as : List Action) (s : State) : (perform n as s).dev.w = s.dev.w :=
  runActions_w _ s

/-! ## Which micro-operations leave the buzzer and the latch alone -/

/-- No write of `BUZ` or `TRIG` among these micro-operations. -/
def quiet : List Action → Bool
  | [] => true
  | .ev (.buz _) :: _ => false
  | .setTrig _ :: _ => false
  | _ :: as => quiet as

theorem quiet_append (as bs : List Action) : quiet (as ++ bs) = (quiet as && quiet bs) := by
  induction as with
  | nil => rfl
  | cons a as ih =>
    cases a with
    | ev e => cases e <;> simp [quiet, ih]
    | latch m b => simp [quiet, ih]
    | setTrig v => simp [quiet]
    | markUndef => simp [quiet, ih]

theorem quiet_sendByte (m : Bit) (b : Byte) : quiet (sendByteActions m b) = true := rfl

theorem quiet_cur (w : Width) (row col : Byte) : quiet (curActions w row col) = true := by
  unfold curActions; split <;> rfl

theorem quiet_str (text : List Byte) : quiet (strActions text) = true := by
  induction text with
  | nil => rfl
  | cons b bs ih =>
    have h : strActions (b :: bs) = sendByteActions 1 b ++ strActions bs := rfl
    rw [h, quiet_append, ih]; rfl

/-- Quiet micro-operations write neither `BUZ` nor `TRIG` (R23, R24). -/
theorem runActions_quiet {as : List Action} {s : State} (h : quiet as = true) :
    (runActions as s).buz = s.buz ∧ (runActions as s).trig = s.trig := by
  induction as generalizing s with
  | nil => exact ⟨rfl, rfl⟩
  | cons a as ih =>
    rw [runActions_cons]
    cases a with
    | ev e =>
      cases e <;> simp only [quiet, reduceCtorEq] at h <;>
        (obtain ⟨h1, h2⟩ := ih (s := act _ s) h; rw [h1, h2]; exact ⟨rfl, rfl⟩)
    | latch m b => obtain ⟨h1, h2⟩ := ih (s := act _ s) h; rw [h1, h2]; exact ⟨rfl, rfl⟩
    | setTrig v => simp [quiet] at h
    | markUndef => obtain ⟨h1, h2⟩ := ih (s := act _ s) h; rw [h1, h2]; exact ⟨rfl, rfl⟩

/-- The rest of quiet micro-operations is quiet. -/
theorem quiet_resume (k : Nat) {as : List Action} (h : quiet as = true) : quiet (resume k as) = true := by
  induction as generalizing k with
  | nil => cases k <;> rfl
  | cons a as ih =>
    cases k with
    | zero => exact h
    | succ k =>
      cases a with
      | ev e => cases e <;> simp_all [quiet, resume]
      | latch m b => simp_all [quiet, resume]
      | setTrig v => simp_all [quiet]
      | markUndef => simp_all [quiet, resume]

end Sys2Proof.Machine
end

