-- ==== Sys2Proof/Laws/Micro.lean ====
section
/-! SUPPORT. What one event of a request does, and how the rest of a request follows from it (R29). -/

namespace Sys2Proof.Machine

/-- Micro-operations do not look at `ms`. -/
theorem runActions_withMs (as : List Action) (s : State) (m : Nat) :
    runActions as { s with ms := m } = { runActions as s with ms := m } := by
  induction as generalizing s with
  | nil => rfl
  | cons a as ih =>
    rw [runActions_cons, runActions_cons, ← ih]
    congr 1
    cases a with
    | ev e => cases e <;> rfl
    | latch m b => rfl
    | setTrig v => rfl
    | markUndef => rfl

/-- The rest after one more event. -/
theorem resume_resume (k : Nat) (as : List Action) : resume 1 (resume k as) = resume (k + 1) as := by
  induction as generalizing k with
  | nil => cases k <;> rfl
  | cons a as ih =>
    cases k with
    | zero => rw [resume_zero]
    | succ k => cases a <;> simp only [resume] <;> exact ih _

theorem eventsOf_resume_one (as : List Action) : eventsOf (resume 1 as) = (eventsOf as).tail := by
  induction as with
  | nil => rfl
  | cons a as ih => cases a <;> simp_all [resume, eventsOf]

/-- With no event left, a micro-step ends the request. -/
theorem microRun_of_no_event {n : Nat} {as : List Action} {s : State} (h : eventsOf as = []) :
    microRun n as s = finish n (runActions as s) := by
  induction as generalizing s with
  | nil => rfl
  | cons a as ih => cases a <;> simp only [eventsOf, reduceCtorEq] at h <;> exact ih h

/-- What `fetch` finds depends on the stream, the pointer, the status and the port only. -/
theorem fetchRequest_run {s : State} {i : Instr} {t : State} (h : fetchRequest s = .run i t) :
    t = s ∧ s.rp ≠ s.req.length ∧ ∃ rest, decodeRequest (s.req.drop s.rp) = .ok i rest := by
  unfold fetchRequest at h
  split at h
  · simp at h
  · rename_i hne
    split at h <;> simp at h
    rename_i j rest hd
    obtain ⟨rfl, rfl⟩ := h
    exact ⟨rfl, hne, rest, hd⟩

end Sys2Proof.Machine
end

