-- ==== Sys2Proof/Laws/PerInstr.lean ====
section
/-! SUPPORT. Facts about each instruction as a term: the bytes it takes in the request stream are as many as
its length says (R91, R102, R111). -/

namespace Sys2Proof.Laws.EncodeLength

/-- The assembler writes `len` bytes for a request and for `MON`, and the other rows have no bytes in the
stream. -/
def Statement (i : Instr) : Prop :=
  ∀ w : Width, (i.format = .req ∨ i.format = .pseudo) → (encode w i).length = i.len w

theorem init : Statement .init := fun _ _ => rfl
theorem cmd (b : Byte) : Statement (.cmd b) := fun _ _ => rfl
theorem chr (b : Byte) : Statement (.chr b) := fun _ _ => rfl
theorem cur (row col : Byte) : Statement (.cur row col) := fun _ _ => rfl
theorem str (text : List Byte) : Statement (.str text) := fun _ _ => by
  simp [encode, encodeRequest, Instr.len]; omega
theorem alm (v : Bit) : Statement (.alm v) := fun _ _ => rfl
theorem dly (u : DelayUnit) (k : Byte) : Statement (.dly u k) := fun _ _ => rfl
theorem mon (r : BitVec 10) : Statement (.mon r) := fun _ _ => by
  simp [encode, Machine.expansion, encodeRequest, Instr.len, Machine.spaces]
  omega
theorem dClear : Statement .dClear := fun _ h => by simp [Instr.format] at h
theorem d4bit : Statement .d4bit := fun _ h => by simp [Instr.format] at h
theorem dAutoinc : Statement .dAutoinc := fun _ h => by simp [Instr.format] at h
theorem dOnNocursor : Statement .dOnNocursor := fun _ h => by simp [Instr.format] at h
theorem d2line : Statement .d2line := fun _ h => by simp [Instr.format] at h
theorem dCursorRow1 (off : BitVec 6) : Statement (.dCursorRow1 off) := fun _ h => by simp [Instr.format] at h
theorem dCursorRow2 (off : BitVec 6) : Statement (.dCursorRow2 off) := fun _ h => by simp [Instr.format] at h
theorem dOther (b : Byte) : Statement (.dOther b) := fun _ h => by simp [Instr.format] at h
theorem dChar (b : Byte) : Statement (.dChar b) := fun _ h => by simp [Instr.format] at h
theorem pulse : Statement .pulse := fun _ h => by simp [Instr.format] at h
theorem sendbyte (m : Bit) (b : Byte) : Statement (.sendbyte m b) := fun _ h => by simp [Instr.format] at h

end Sys2Proof.Laws.EncodeLength
end

