-- ==== Sys2Proof/Laws/Text.lean ====
section
/-! SUPPORT. The decimal numeral: its digits, its value, its leading digit and its length. -/

namespace Sys2Proof.Machine

theorem digitCode_toNat {d : Nat} (h : d < 10) : (digitCode d).toNat = 0x30 + d := by
  unfold digitCode; simp; omega

/-- A numeral is not empty and holds digit codes only. -/
theorem decimalFrom_digits {fuel n : Nat} (h : n < fuel) :
    decimalFrom fuel n ≠ [] ∧ ∀ d ∈ decimalFrom fuel n, 0x30 ≤ d.toNat ∧ d.toNat ≤ 0x39 := by
  induction fuel generalizing n with
  | zero => omega
  | succ fuel ih =>
    unfold decimalFrom
    split
    · rename_i hn
      refine ⟨by simp, fun d hd => ?_⟩
      obtain rfl : d = digitCode n := by simpa using hd
      rw [digitCode_toNat hn]; omega
    · refine ⟨by simp, fun d hd => ?_⟩
      obtain hd | hd := List.mem_append.mp hd
      · exact (ih (by omega)).2 d hd
      · obtain rfl : d = digitCode (n % 10) := by simpa using hd
        rw [digitCode_toNat (by omega)]; omega

/-- A numeral's digits give the number back. -/
theorem decimalFrom_value {fuel n : Nat} (h : n < fuel) :
    (decimalFrom fuel n).foldl (fun acc d => 10 * acc + (d.toNat - 0x30)) 0 = n := by
  induction fuel generalizing n with
  | zero => omega
  | succ fuel ih =>
    unfold decimalFrom
    split
    · rename_i hn; simp [digitCode_toNat hn]
    · rw [List.foldl_append, ih (by omega)]
      simp only [List.foldl_cons, List.foldl_nil]
      rw [digitCode_toNat (by omega)]; omega

/-- The numeral of a positive number does not start with `0`. -/
theorem decimalFrom_head {fuel n : Nat} (h : n < fuel) (hn : 0 < n) :
    (decimalFrom fuel n).head? ≠ some 0x30 := by
  induction fuel generalizing n with
  | zero => omega
  | succ fuel ih =>
    unfold decimalFrom
    split
    · rename_i hlt
      intro he
      have h0 : (digitCode n).toNat = 0x30 := by
        rw [show digitCode n = 0x30 by simpa using he]; rfl
      rw [digitCode_toNat hlt] at h0; omega
    · rw [List.head?_append]
      have hne := (decimalFrom_digits (fuel := fuel) (n := n / 10) (by omega)).1
      cases hd : decimalFrom fuel (n / 10) with
      | nil => exact absurd hd hne
      | cons d ds =>
        have := ih (n := n / 10) (by omega) (by omega)
        rw [hd] at this
        simpa using this

/-- The numerals of numbers below 1000 have one to three digits. -/
theorem decimal_length {n : Nat} (h : n < 1000) : 1 ≤ (decimal n).length ∧ (decimal n).length ≤ 3 := by
  unfold decimal
  refine ⟨?_, ?_⟩
  · exact List.length_pos_iff.mpr (decimalFrom_digits (by omega)).1
  · by_cases h1 : n < 10
    · simp [decimalFrom, h1]
    · obtain ⟨k, rfl⟩ : ∃ k, n = k + 2 := ⟨n - 2, by omega⟩
      by_cases h2 : (k + 2) / 10 < 10
      · simp [decimalFrom, h1, h2]
      · have h3 : (k + 2) / 10 / 10 < 10 := by omega
        simp [decimalFrom, h1, h2, h3]

end Sys2Proof.Machine
end

