-- ==== Sys2Proof/Tests/Slice0.lean ====
section
/-! SUPPORT. The model's own tests. Every expected value is the spec's: the encodings of 30_encoding.md, and the
vectors and programs of 95_test_vectors.md, named in each section. The second half shows, for every obligation
with hypotheses, a concrete state and operands that meet all of them. -/

namespace Sys2Proof.Tests

open Sys2Proof Sys2Proof.Machine Sys2Proof.Claims

/-! ## Small states -/

/-- The device after `INIT` from reset, as R150 lists it. -/
def initialized : Dev :=
  { Dev.reset with
    wait := 0, if4 := true, lines2 := true, on := true, inc := true, cell := blankCells Config.W }

/-- The device of `initialized` with the cursor at a place. -/
def atPlace (row : Row) (col : Nat) : Dev := { initialized with cur := some ⟨row, col⟩ }

/-- A machine between requests with this stream and this device. -/
def machine (stream : List Byte) (d : Dev) : State := { State.reset with req := stream, dev := d }

/-- The state an operation or a step answers. -/
def next (o : Host.Outcome State Fault Refusal) (s : State) : State :=
  match o with
  | .next t => t
  | .fault _ => s
  | .refused _ => s

/-- The state after one operation. -/
def after (i : Instr) (s : State) : State := next (exec i s) s

/-- The state after one step. -/
def stepped (s : State) : State := next (step s) s

/-! ## Well-formedness: the ill-formed terms are refused -/

theorem test_str_256_ill_formed : (Instr.str (List.replicate 256 0x41)).wellFormed Config.W = false := by
  decide +kernel
theorem test_str_255_well_formed : (Instr.str (List.replicate 255 0x41)).wellFormed Config.W = true := by
  decide +kernel
theorem test_listed_other_ill_formed :
    [0x01, 0x02, 0x06, 0x0C, 0x28, 0x80, 0x8F, 0xC0, 0xCF].any (fun b => (Instr.dOther b).wellFormed Config.W) = false := by
  decide
theorem test_unlisted_other_well_formed :
    [0x00, 0x0E, 0x7F, 0x90, 0xBF, 0xD0, 0xFF].all (fun b => (Instr.dOther b).wellFormed Config.W) = true := by decide

theorem test_cursor_offset_ill_formed :
    (Instr.dCursorRow1 16).wellFormed 16 = false ∧ (Instr.dCursorRow2 63).wellFormed 63 = false
      ∧ (Instr.dCursorRow1 16).wellFormed 17 = true := by decide

/-! ## Decoding: words written out from the spec's encodings (R92 to R98, R106, R110, R111) -/

theorem test_decode_init : decodeRequest [0x10] = .ok .init [] := by decide
theorem test_decode_cmd : decodeRequest [0x11, 0x28] = .ok (.cmd 0x28) [] := by decide
theorem test_decode_chr : decodeRequest [0x12, 0x41] = .ok (.chr 0x41) [] := by decide
theorem test_decode_cur : decodeRequest [0x13, 0x02, 0x10] = .ok (.cur 2 16) [] := by decide
theorem test_decode_str : decodeRequest [0x14, 0x02, 0x48, 0x69, 0x10] = .ok (.str [0x48, 0x69]) [0x10] := by
  decide
theorem test_decode_alm : decodeRequest [0x20, 0x01] = .ok (.alm 1) [] := by decide
theorem test_decode_dly_tu : decodeRequest [0x30, 0x00, 0x02] = .ok (.dly .timeUnits 2) [] := by decide
theorem test_decode_dly_s : decodeRequest [0x30, 0x01, 0x01] = .ok (.dly .seconds 1) [] := by decide
theorem test_decode_clear : decodeDevice Config.W 0 0b00000001 = .dClear := by decide
theorem test_decode_4bit : decodeDevice Config.W 0 0b00000010 = .d4bit := by decide
theorem test_decode_autoinc : decodeDevice Config.W 0 0b00000110 = .dAutoinc := by decide
theorem test_decode_on : decodeDevice Config.W 0 0b00001100 = .dOnNocursor := by decide
theorem test_decode_2line : decodeDevice Config.W 0 0b00101000 = .d2line := by decide
theorem test_decode_row1 : decodeDevice Config.W 0 0b10000100 = .dCursorRow1 4 := by decide
theorem test_decode_row2 : decodeDevice Config.W 0 0b11001111 = .dCursorRow2 15 := by decide
theorem test_decode_other : decodeDevice Config.W 0 0b10010000 = .dOther 0x90 := by decide
theorem test_decode_char : decodeDevice Config.W 1 0b00000001 = .dChar 0x01 := by decide
theorem test_internal_rows_have_no_bytes : encode Config.W .pulse = [] ∧ encode Config.W (.sendbyte 1 0x41) = [] := by decide

/-- V-MON's expansion of `MON 175`, byte for byte. -/
theorem test_encode_mon : encode Config.W (.mon 175) =
    [0x13, 0x01, 0x01] ++ [0x14, 0x10, 0x57, 0x41, 0x52, 0x4E, 0x49, 0x4E, 0x47, 0x3A, 0x20]
      ++ [0x48, 0x4F, 0x54, 0x21, 0x20, 0x20, 0x20] ++ [0x13, 0x02, 0x01]
      ++ [0x14, 0x10] ++ List.replicate 16 0x20 ++ [0x13, 0x02, 0x01]
      ++ [0x14, 0x0D, 0x54, 0x65, 0x6D, 0x70, 0x3A, 0x20, 0x38, 0x35, 0x2E, 0x34, 0x30, 0x20, 0x43]
      ++ [0x20, 0x01, 0x30, 0x01, 0x01] := by decide +kernel

/-- Words of the opcode table, its bit 0 the first byte's bit 0; a row's word without its operand bytes. -/
theorem test_table_words :
    decodeTableWord 24 0b000100000000001000010011 = some (.cur 2 16)
      ∧ decodeTableWord 8 0b00010011 = some (.cur 0 0) ∧ decodeTableWord 8 0b00010100 = some (.str [])
      ∧ decodeTableWord 8 0b00110000 = some (.dly .timeUnits 0) := by decide

theorem test_asm_lines :
    asmLine Config.W "CUR 2, 16".toList = some [0x13, 0x02, 0x10]
      ∧ asmLine Config.W "STR \"Hi\" ; a comment".toList = some [0x14, 0x02, 0x48, 0x69]
      ∧ asmLine Config.W "CHR 'A'".toList = some [0x12, 0x41]
      ∧ asmLine Config.W "CMD 0x28".toList = some [0x11, 0x28] := by decide +kernel
theorem test_asm_mon_range :
    asmLine Config.W "MON 1024".toList = none ∧ asmLine Config.W "MON 51".toList = some (encode Config.W (.mon 51)) := by decide +kernel

/-! ## Single operations -/

/-- V-INIT-1: the pairs latched at the ten falling edges. -/
theorem test_init_pairs :
    fallingPairs 0 0 0 (after .init State.reset).tr =
      [(0, 0x0), (0, 0x2), (0, 0x2), (0, 0x8), (0, 0x0), (0, 0xC), (0, 0x0), (0, 0x6), (0, 0x0), (0, 0x1)] := by
  decide
/-- V-INIT-1: the device at the end. -/
theorem test_init_device : (after .init State.reset).dev = initialized := by decide +kernel

/-- C1: the trace is sent, and the device is undefined before its power-on delay. -/
theorem test_cmd_at_reset :
    (after (.cmd 0x28) State.reset).tr =
      [.rs 0, .db 2, .en 1, .t 1, .en 0, .db 8, .en 1, .t 1, .en 0, .t 2]
      ∧ (after (.cmd 0x28) State.reset).dev.undef = true := by decide
/-- C6: 0x0E is no listed command. -/
theorem test_cmd_unlisted : (after (.cmd 0x0E) (machine [] initialized)).dev.undef = true := by decide

/-- T4: `Z` in the last column leaves the cursor behind it. -/
theorem test_chr_last_column :
    (after (.chr 0x5A) (machine [] (atPlace .row2 16))).dev.cellAt .row2 16 = some 0x5A
      ∧ (after (.chr 0x5A) (machine [] (atPlace .row2 16))).dev.cur = some ⟨.row2, 17⟩ := by decide
/-- C5: the cursor is unknown after `INIT`. -/
theorem test_chr_cursor_unknown : (after (.chr 0x41) (machine [] initialized)).dev.undef = true := by decide

/-- V-CUR: row 255 is row 2. -/
theorem test_cur_any_row : (after (.cur 255 16) (machine [] initialized)).dev.cur = some ⟨.row2, 16⟩ := by decide
/-- V-CUR: column 130 sends 0x01, the clear command, and still is undefined. -/
theorem test_cur_130 : (after (.cur 1 130) (machine [] initialized)).curByte = 0x01
    ∧ (after (.cur 1 130) (machine [] initialized)).dev.undef = true := by decide

/-- T1: the empty text. -/
theorem test_str_empty : (after (.str []) State.reset).rp = 2 ∧ (after (.str []) State.reset).tr = []
    ∧ (after (.str []) State.reset).dev.wait = 20 := by decide
/-- T3: the second character falls behind the last column. -/
theorem test_str_past_end :
    (after (.str [0x41, 0x42]) (machine [] (atPlace .row1 16))).dev.undef = true
      ∧ (after (.str [0x41, 0x42]) (machine [] (atPlace .row1 16))).tr.length = 20 := by decide

/-- R63, R192, R195 with `W` = 20: column 20 is a cell, 0x94 is no cursor byte, and a character behind column 20
is undefined. -/
theorem test_wider_display :
    decodeDevice 20 0 0x93 = .dCursorRow1 19 ∧ decodeDevice 20 0 0x94 = .dOther 0x94
      ∧ (after (.cur 2 20) (machine [] { initialized with w := 20 })).dev.cur = some ⟨.row2, 20⟩
      ∧ (after (.chr 0x41) (machine [] { atPlace .row2 20 with w := 20 })).dev.cellAt .row2 20 = some 0x41
      ∧ (after (.chr 0x41) (machine [] { atPlace .row2 21 with w := 20 })).dev.undef = true := by decide
/-- R157, R187 with `W` = 8: column 9 is out of range, and a clear writes the 16 cells there are. -/
theorem test_narrower_display :
    (after (.cur 1 9) (machine [] { initialized with w := 8 })).dev.undef = true
      ∧ (after .init (State.powerOn 8)).dev.cell.length = 16 := by decide +kernel

/-- A1: the pulse. -/
theorem test_alm_pulse : (after (.alm 1) State.reset).tr = [.buz 1, .s 5, .buz 0]
    ∧ (after (.alm 1) State.reset).trig = 1 := by decide
/-- A2 and A3: silent reset, and no second pulse. -/
theorem test_alm_triggered :
    (after (.alm 0) { State.reset with trig := 1 }).trig = 0
      ∧ (after (.alm 0) { State.reset with trig := 1 }).tr = []
      ∧ (after (.alm 1) { State.reset with trig := 1 }).tr = []
      ∧ (after (.alm 1) { State.reset with trig := 1 }).trig = 1 := by decide

/-- V-DLY: `T(0)` leaves the wait, `T(255)` ends it. -/
theorem test_dly_time_units : (after (.dly .timeUnits 0) State.reset).dev.wait = 20
    ∧ (after (.dly .timeUnits 0) State.reset).tr = [.t 0]
    ∧ (after (.dly .timeUnits 255) State.reset).dev.wait = 0 := by decide
/-- V-DLY, R181: `S(0)` does nothing, `S(1)` covers every wait. -/
theorem test_dly_seconds : (after (.dly .seconds 0) State.reset).dev.wait = 20
    ∧ (after (.dly .seconds 1) State.reset).dev.wait = 0 := by decide

/-- V-MON, `r = 205`: row 2, cursor, latch. -/
theorem test_mon_205 :
    rowText .row2 (after (.mon 205) (machine [] initialized)).dev =
        some [0x54, 0x65, 0x6D, 0x70, 0x3A, 0x20, 0x31, 0x30, 0x30, 0x2E, 0x30, 0x34, 0x20, 0x43, 0x20, 0x20]
      ∧ (after (.mon 205) (machine [] initialized)).dev.cur = some ⟨.row2, 15⟩
      ∧ (after (.mon 205) (machine [] initialized)).trig = 1 := by decide +kernel
/-- V-FN: the two samples at the threshold. -/
theorem test_threshold : overRaw 163 = 0 ∧ overRaw 164 = 1 := by decide

/-- R187. -/
theorem test_d_clear : (after .dClear (machine [] (atPlace .row1 3))).dev.cur = none
    ∧ (after .dClear (machine [] (atPlace .row1 3))).dev.wait = 4 := by decide
/-- R188: the cursor is unknown, the cells stay. -/
theorem test_d_4bit : (after .d4bit (machine [] (atPlace .row1 3))).dev.cur = none
    ∧ (after .d4bit (machine [] (atPlace .row1 3))).dev.cell = blankCells Config.W := by decide
/-- R189. -/
theorem test_d_autoinc :
    (after .dAutoinc (machine [] { initialized with inc := false })).dev.inc = true := by decide
/-- R190. -/
theorem test_d_on : (after .dOnNocursor (machine [] { initialized with on := false })).dev.on = true := by decide
/-- R191. -/
theorem test_d_2line :
    (after .d2line (machine [] { initialized with lines2 := false })).dev.lines2 = true := by decide
/-- R192: 0x84 gives (1, 5). -/
theorem test_d_row1 : (after (.dCursorRow1 4) (machine [] initialized)).dev.cur = some ⟨.row1, 5⟩ := by decide
/-- R193: 0xCF gives (2, 16), and is undefined without two lines. -/
theorem test_d_row2 : (after (.dCursorRow2 15) (machine [] initialized)).dev.cur = some ⟨.row2, 16⟩
    ∧ (after (.dCursorRow2 15) (machine [] { initialized with lines2 := false })).dev.undef = true := by decide
/-- R194. -/
theorem test_d_other : (after (.dOther 0x90) (machine [] initialized)).dev.undef = true := by decide
/-- R195's worked example. -/
theorem test_d_char : (after (.dChar 0x54) (machine [] (atPlace .row2 1))).dev.cellAt .row2 1 = some 0x54
    ∧ (after (.dChar 0x54) (machine [] (atPlace .row2 1))).dev.cur = some ⟨.row2, 2⟩ := by decide

/-- R130's worked example, on a settled device not yet in 4-bit mode: R184. -/
theorem test_pulse : (after .pulse (machine [] { Dev.reset with wait := 0 })).tr = [.en 1, .t 1, .en 0]
    ∧ (after .pulse { machine [] { Dev.reset with wait := 0 } with db := 0x2 }).dev.if4 = true := by decide
/-- V-BUS, `1, 0xA5` and `0, 0x22`. -/
theorem test_sendbyte :
    (after (.sendbyte 1 0xA5) State.reset).tr =
      [.rs 1, .db 0xA, .en 1, .t 1, .en 0, .db 0x5, .en 1, .t 1, .en 0, .t 2]
      ∧ (after (.sendbyte 0 0x22) State.reset).tr =
        [.rs 0, .db 2, .en 1, .t 1, .en 0, .db 2, .en 1, .t 1, .en 0, .t 2] := by decide

/-! ## Steps -/

/-- V-REF. -/
theorem test_refused_streams :
    (stepped (machine [0xFF] Dev.reset)).refused = some (.reservedOpcode 0xFF)
      ∧ (stepped (machine [0x20, 0x02] Dev.reset)).refused = some (.reservedAlarmOperand 2)
      ∧ (stepped (machine [0x30, 0x02, 0x01] Dev.reset)).refused = some (.reservedDelayUnit 2)
      ∧ (stepped (machine [0x14, 0x03, 0x41] Dev.reset)).refused = some (.truncatedRequest 0)
      ∧ (stepped (machine [0x14, 0x03, 0x41] Dev.reset)).tr = [] := by decide
/-- V-REF, last row: the empty string, then the end of the run. -/
theorem test_ended : (stepped (stepped (machine [0x14, 0x00] Dev.reset))).seq = .ended
    ∧ (stepped (stepped (machine [0x14, 0x00] Dev.reset))).rp = 2 := by decide

/-- The instruction of a table word is what the next step runs. -/
theorem test_fetch_word_request :
    (stepped (State.reset.withFetchWord 24 0x100213)).curByte = 0xCF
      ∧ (stepped (State.reset.withFetchWord 24 0x100213)).rp = 3 := by decide
theorem test_fetch_word_device :
    (stepped ((machine [] initialized).withFetchWord 8 0xCF)).dev.cur = some ⟨.row2, 16⟩ := by decide

/-! ## V-FN -/

theorem test_values :
    value 2 = [0x54, 0x65, 0x6D, 0x70, 0x3A, 0x20, 0x30, 0x2E, 0x39, 0x38, 0x20, 0x43]
      ∧ fmt2 ⟨9996, 1000⟩ = [0x31, 0x30, 0x2E, 0x30, 0x30] ∧ fmt2 ⟨4, 1000⟩ = [0x30, 0x2E, 0x30, 0x30]
      ∧ overT ⟨80, 1⟩ = 0 ∧ overT ⟨80001, 1000⟩ = 1 := by decide

/-! ## The hypotheses of every obligation can be met -/

theorem initialized_aligned : initialized.Aligned := ⟨rfl, rfl, rfl, rfl⟩
theorem atPlace_aligned (row : Row) (col : Nat) : (atPlace row col).Aligned := ⟨rfl, rfl, rfl, rfl⟩
theorem initialized_wf : initialized.Wf := ⟨blankCells_wf _, blankCells_onCells _, by intro c h; cases h⟩
theorem atPlace_wf {row : Row} {col : Nat} (h : 1 ≤ col ∧ col ≤ 17) : (atPlace row col).Wf :=
  ⟨blankCells_wf _, blankCells_onCells _, by intro c hc; cases hc; exact h⟩

theorem test_witness_RequestDecodesWhatWasEncoded :
    (Instr.str [0x48, 0x69]).format = .req ∧ (Instr.str [0x48, 0x69]).wellFormed Config.W = true
      ∧ (Instr.str (List.replicate 255 0)).wellFormed Config.W = true := by decide +kernel
theorem test_witness_RequestHasOneEncoding :
    decodeRequest [0x14, 0x02, 0x48, 0x69, 0x10] = .ok (.str [0x48, 0x69]) [0x10] := by decide
theorem test_witness_OpcodeTellsLength :
    decodeRequest [0x10] = .ok .init [] ∧ decodeRequest [0x12, 0xFF] = .ok (.chr 0xFF) []
      ∧ decodeRequest [0x30, 0x01, 0xFF] = .ok (.dly .seconds 0xFF) [] ∧ decodeRequest [0x14, 0x00] = .ok (.str []) []
      ∧ ((0x0F : Byte) ≠ 0x10 ∧ (0x15 : Byte) ≠ 0x14 ∧ (0x21 : Byte) ≠ 0x20 ∧ (0x31 : Byte) ≠ 0x30) := by decide
theorem test_witness_DeviceBytesDecodeAndEncode :
    (Instr.dCursorRow1 15).wellFormed Config.W = true ∧ encodeDevice (.dCursorRow1 15) = some (0, 0x8F) := by decide
theorem test_witness_StepRunsRequestAtPointer :
    (machine [0x13, 2, 16, 0x10] initialized).port = none ∧ (machine [0x13, 2, 16, 0x10] initialized).seq = .ready
      ∧ (Instr.cur 2 16).format = .req ∧ (Instr.cur 2 16).wellFormed Config.W = true
      ∧ (machine [0x13, 2, 16, 0x10] initialized).req.drop (machine [0x13, 2, 16, 0x10] initialized).rp
        = encodeRequest (.cur 2 16) ++ [0x10] := by decide
theorem test_witness_StepRunsByteAtPort :
    (Instr.dChar 0x41).wellFormed Config.W = true ∧ encodeDevice (.dChar 0x41) = some (1, 0x41)
      ∧ ({ machine [] initialized with port := some (1, 0x41) } : State).port = some (1, 0x41) := by decide
theorem test_witness_ReservedOpcodeIsRefused :
    [0x00, 0x0F, 0x15, 0x1F, 0x21, 0x2F, 0x31, 0xFF].all (fun op : Byte =>
      decide ((machine [op] Dev.reset).port = none ∧ (machine [op] Dev.reset).seq = .ready
        ∧ (machine [op] Dev.reset).req.drop (machine [op] Dev.reset).rp = [op]
        ∧ (op.toNat ≤ 0x0F ∨ (0x15 ≤ op.toNat ∧ op.toNat ≤ 0x1F) ∨ (0x21 ≤ op.toNat ∧ op.toNat ≤ 0x2F)
          ∨ 0x31 ≤ op.toNat))) = true := by decide
theorem test_witness_ReservedOperandIsRefused :
    (1 < (2 : Byte).toNat ∧ 1 < (255 : Byte).toNat) ∧ (machine [0x20, 2] Dev.reset).port = none
      ∧ (machine [0x20, 2] Dev.reset).seq = .ready
      ∧ (machine [0x20, 2] Dev.reset).req.drop (machine [0x20, 2] Dev.reset).rp = [0x20, 2]
      ∧ (machine [0x30, 255, 7] Dev.reset).req.drop (machine [0x30, 255, 7] Dev.reset).rp = [0x30, 255, 7]
      ∧ (List.replicate 255 (0x41 : Byte)).length ≤ 255 := by decide +kernel
theorem test_witness_TruncatedRequestIsRefused :
    (machine [0x14, 3, 0x41] Dev.reset).port = none ∧ (machine [0x14, 3, 0x41] Dev.reset).seq = .ready
      ∧ (Instr.str [0x41, 0x42, 0x43]).format = .req ∧ (Instr.str [0x41, 0x42, 0x43]).wellFormed Config.W = true
      ∧ (machine [0x14, 3, 0x41] Dev.reset).req.drop (machine [0x14, 3, 0x41] Dev.reset).rp ++ [0x42, 0x43]
        = encodeRequest (.str [0x41, 0x42, 0x43])
      ∧ ([0x42, 0x43] : List Byte) ≠ []
      ∧ (machine [0x14, 3, 0x41] Dev.reset).rp < (machine [0x14, 3, 0x41] Dev.reset).req.length := by decide
theorem test_witness_TruncatedDelayBeforeItsUnit :
    (machine [0x30, 2] Dev.reset).port = none ∧ (machine [0x30, 2] Dev.reset).seq = .ready
      ∧ 1 < (2 : Byte).toNat
      ∧ (machine [0x30, 2] Dev.reset).req.drop (machine [0x30, 2] Dev.reset).rp = [0x30, 2] := by decide
theorem test_witness_StreamEndsAtItsLength :
    (State.reset.port = none ∧ State.reset.seq = .ready ∧ State.reset.rp = State.reset.req.length)
      ∧ (endRun State.reset).port = none ∧ (endRun State.reset).seq = .ended
      ∧ (refuse (.reservedOpcode 0) State.reset).seq = .refused := by decide
/-- A defined device, the one hypothesis of `PulseResult`. -/
theorem test_witness_PulseResult : (machine [] initialized).dev.defined := rfl
theorem test_witness_SendByteRoundTrip :
    State.reset.en = 0 ∧ exec (.sendbyte 1 0xA5) State.reset = .next (after (.sendbyte 1 0xA5) State.reset) :=
  ⟨rfl, rfl⟩
theorem test_witness_PulsesComeInPairs :
    IsOperation (.mon 175) ∧ IsOperation .init ∧ State.reset.ms = 0 ∧ State.reset.en = 0 :=
  ⟨.inr rfl, .inl rfl, rfl, rfl⟩
theorem test_witness_EdgeRules :
    (State.reset.dev.undef = false ∧ State.reset.dev.en = 0)
      ∧ (machine [] { initialized with en := 1, hold := 1 }).dev.undef = false
      ∧ (machine [] { initialized with en := 1, hold := 1 }).dev.en = 1 := by decide
theorem test_witness_PairRules :
    (Dev.reset.undef = false ∧ initialized.undef = false) ∧ Dev.reset.if4 = false ∧ (initialized.if4 = true ∧ initialized.ph = .hi)
      ∧ (({ initialized with ph := .lo, hn := 0x4 } : Dev).ph = .lo ∧ (1 : Bit) ≠ initialized.hrs
        ∧ (0 : Bit) = initialized.hrs ∧ (0x4F : Byte).toNat = 16 * (0x4 : Nibble).toNat + (0xF : Nibble).toNat) := by
  decide
/-- `ms = 0`, the one hypothesis of `CmdResult`, `ChrResult`, `CurResult`, `StrResult`,
`StringEqualsItsCharacters`, `LeastTimes` and the first part of `InitResult`, `AlarmTransitions` and
`DelayResult`. -/
theorem test_witness_between_requests : State.reset.ms = 0 ∧ (machine [] initialized).ms = 0 := by decide
theorem test_witness_InitResult :
    (State.reset.ms = 0 ∧ State.reset.dev = Dev.powerOn State.reset.dev.w)
      ∧ (machine [] initialized).dev.defined ∧ (machine [] initialized).dev.Aligned :=
  ⟨⟨rfl, rfl⟩, rfl, initialized_aligned⟩
theorem test_witness_InitIsIdempotent :
    State.reset.ms = 0 ∧ (State.reset.dev = Dev.powerOn State.reset.dev.w ∨ (State.reset.dev.defined ∧ State.reset.dev.Aligned)) :=
  ⟨rfl, .inl rfl⟩
theorem test_witness_ListedCommandsAtDevice :
    (machine [] initialized).ms = 0 ∧ (machine [] initialized).dev.defined
      ∧ (machine [] initialized).dev.Aligned
      ∧ (0x80 ≤ (0x80 : Byte).toNat ∧ (0x8F : Byte).toNat < 0x80 + (machine [] initialized).dev.w.val)
      ∧ (0xC0 ≤ (0xC0 : Byte).toNat ∧ (0xCF : Byte).toNat < 0xC0 + (machine [] initialized).dev.w.val) ∧ (machine [] initialized).dev.lines2 = true
      ∧ (machine [] { initialized with lines2 := false }).dev.lines2 = false :=
  ⟨rfl, rfl, initialized_aligned, by decide, by decide, rfl, rfl⟩
theorem test_witness_BareClearNeedsItsDelay :
    (machine [] initialized).ms = 0 ∧ (machine [] initialized).dev.defined
      ∧ (machine [] initialized).dev.Aligned ∧ 2 ≤ (2 : Byte).toNat ∧ 1 ≤ (1 : Byte).toNat
      ∧ ([0x41] : List Byte) ≠ [] :=
  ⟨rfl, rfl, initialized_aligned, by decide, by decide, by decide⟩
theorem test_witness_UnlistedCommandIsUndefined :
    (machine [] initialized).ms = 0 ∧ (machine [] initialized).dev.Aligned
      ∧ [0x00, 0x03, 0x0E, 0x7F, 0x90, 0xBF, 0xD0, 0xFF].all (fun b : Byte =>
        decide (b ≠ 0x01 ∧ b ≠ 0x02 ∧ b ≠ 0x06 ∧ b ≠ 0x0C ∧ b ≠ 0x28 ∧ ¬(0x80 ≤ b.toNat ∧ b.toNat < 0x80 + (machine [] initialized).dev.w.val)
          ∧ ¬(0xC0 ≤ b.toNat ∧ b.toNat < 0xC0 + (machine [] initialized).dev.w.val))) = true :=
  ⟨rfl, initialized_aligned, by decide⟩
theorem test_witness_ChrAtDevice :
    ((machine [] (atPlace .row1 16)).ms = 0 ∧ (machine [] (atPlace .row1 16)).dev.Aligned
      ∧ (machine [] (atPlace .row1 16)).dev.Wf ∧ (machine [] (atPlace .row1 16)).dev.cur = some ⟨.row1, 16⟩
      ∧ (machine [] (atPlace .row1 16)).dev.defined)
      ∧ (atPlace .row1 17).Wf ∧ (atPlace .row1 17).cur = some ⟨.row1, 17⟩ ∧ initialized.cur = none :=
  ⟨⟨rfl, atPlace_aligned _ _, atPlace_wf (by decide), rfl, rfl⟩, atPlace_wf (by decide), rfl, rfl⟩
theorem test_witness_CurAtDevice :
    (machine [] initialized).ms = 0 ∧ (machine [] initialized).dev.defined
      ∧ (machine [] initialized).dev.Aligned ∧ (machine [] initialized).dev.lines2 = true
      ∧ (1 ≤ (1 : Byte).toNat ∧ (1 : Byte).toNat ≤ (machine [] initialized).dev.w.val)
      ∧ (1 ≤ (16 : Byte).toNat ∧ (16 : Byte).toNat ≤ (machine [] initialized).dev.w.val) :=
  ⟨rfl, rfl, initialized_aligned, rfl, by decide, by decide⟩
/-- A device in 4-bit mode without two lines, for row 1 and for the last clause (row 2). -/
theorem test_witness_CurAtDevice_one_line :
    (machine [] { initialized with lines2 := false }).ms = 0
      ∧ (machine [] { initialized with lines2 := false }).dev.defined
      ∧ (machine [] { initialized with lines2 := false }).dev.Aligned
      ∧ (machine [] { initialized with lines2 := false }).dev.lines2 = false ∧ (2 : Byte) ≠ 1
      ∧ (after (.cur 1 16) (machine [] { initialized with lines2 := false })).dev.cur = some ⟨.row1, 16⟩ :=
  ⟨rfl, rfl, ⟨rfl, rfl, rfl, rfl⟩, rfl, by decide, by decide⟩
theorem test_witness_CurOutOfRangeIsUndefined :
    State.reset.ms = 0 ∧ (0 : Byte).toNat = 0 ∧ State.reset.dev.w.val < (17 : Byte).toNat
      ∧ State.reset.dev.w.val < (255 : Byte).toNat := by decide
theorem test_witness_StrAtDevice :
    (machine [] (atPlace .row1 15)).ms = 0 ∧ (machine [] (atPlace .row1 15)).dev.defined
      ∧ (machine [] (atPlace .row1 15)).dev.Aligned ∧ (machine [] (atPlace .row1 15)).dev.inc = true
      ∧ (machine [] (atPlace .row1 15)).dev.cur = some ⟨.row1, 15⟩
      ∧ 15 + ([0x48, 0x69] : List Byte).length ≤ (machine [] (atPlace .row1 15)).dev.w.val + 1 :=
  ⟨rfl, rfl, atPlace_aligned _ _, rfl, rfl, by decide⟩
theorem test_witness_StrPastRowEndIsUndefined :
    (machine [] (atPlace .row1 16)).ms = 0 ∧ (machine [] (atPlace .row1 16)).dev.Aligned
      ∧ (machine [] (atPlace .row1 16)).dev.Wf ∧ ([0x41, 0x42] : List Byte) ≠ []
      ∧ (machine [] (atPlace .row1 16)).dev.cur = some ⟨.row1, 16⟩
      ∧ (machine [] (atPlace .row1 16)).dev.w.val + 1 < 16 + ([0x41, 0x42] : List Byte).length
      ∧ initialized.cur = none :=
  ⟨rfl, atPlace_aligned _ _, atPlace_wf (by decide), by decide, rfl, by decide, rfl⟩
theorem test_witness_CellsKeepTheirValue :
    (machine [] (atPlace .row1 3)).ms = 0 ∧ (machine [] (atPlace .row1 3)).dev.Paired ∧ (0x06 : Byte) ≠ 0x01
      ∧ (after (.cmd 0x06) (machine [] (atPlace .row1 3))).dev.undef = false
      ∧ (after (.cur 2 16) (machine [] (atPlace .row1 3))).dev.undef = false
      ∧ (after (.chr 0x41) (machine [] (atPlace .row1 3))).dev.undef = false
      ∧ (atPlace .row1 3).cur.map (fun c => cellAddr c.row c.col) ≠ some (cellAddr .row1 4) :=
  ⟨rfl, ⟨fun _ => rfl, rfl⟩, by decide, by decide, by decide, by decide, by decide⟩
/-- The clause on `STR`: a text up to the row's end, and the cell before it. -/
theorem test_witness_CellsKeepTheirValue_str :
    (machine [] (atPlace .row1 15)).dev.Paired
      ∧ (after (.str [0x48, 0x69]) (machine [] (atPlace .row1 15))).dev.undef = false
      ∧ ∀ c k, (machine [] (atPlace .row1 15)).dev.cur = some c → k < ([0x48, 0x69] : List Byte).length →
        cellAddr .row1 14 ≠ cellAddr c.row (c.col + k) := by
  refine ⟨⟨fun _ => rfl, rfl⟩, by decide, ?_⟩
  intro c k hc hk
  cases hc
  simp [cellAddr, rowBase, Config.BASE_ROW1]
  omega
theorem test_witness_UnsettledDeviceIsUndefined :
    State.reset.ms = 0 ∧ State.reset.dev.en = 0 ∧ 0 < State.reset.dev.wait
      ∧ 0 < (machine [] { initialized with wait := 1 }).dev.wait := by decide
theorem test_witness_BytesBefore4bitMode :
    (machine [] { Dev.reset with wait := 0 }).ms = 0 ∧ (machine [] { Dev.reset with wait := 0 }).dev.if4 = false
      ∧ (machine [] { Dev.reset with wait := 0 }).dev.en = 0 ∧ (machine [] { Dev.reset with wait := 0 }).dev.wait = 0
      ∧ (machine [] { Dev.reset with wait := 0 }).dev.undef = false
      ∧ ((0x01 : Byte) ≠ 0x00 ∧ (0x03 : Byte) ≠ 0x02 ∧ (0x20 : Byte) ≠ 0x02) := by decide
theorem test_witness_DeviceCommandRows :
    ((15 : BitVec 6).toNat < (machine [] initialized).dev.w.val) ∧
    (machine [] initialized).dev.undef = false ∧ (machine [] initialized).dev.if4 = true ∧ (machine [] initialized).dev.lines2 = true
      ∧ (machine [] { initialized with lines2 := false }).dev.lines2 = false := by decide
theorem test_witness_DeviceCharacterRow :
    (machine [] (atPlace .row2 16)).dev.defined ∧ (machine [] (atPlace .row2 16)).dev.if4 = true ∧ (machine [] (atPlace .row2 16)).dev.Wf
      ∧ (machine [] (atPlace .row2 16)).dev.cur = some ⟨.row2, 16⟩
      ∧ (atPlace .row2 17).Wf ∧ (atPlace .row2 17).cur = some ⟨.row2, 17⟩ ∧ initialized.cur = none :=
  ⟨rfl, rfl, atPlace_wf (by decide), rfl, atPlace_wf (by decide), rfl, rfl⟩
theorem test_witness_DeviceRowsBefore4bitMode :
    (machine [] { Dev.reset with wait := 0 }).dev.if4 = false
      ∧ (machine [] { Dev.reset with wait := 0 }).dev.en = 0
      ∧ (machine [] { Dev.reset with wait := 0 }).dev.wait = 0
      ∧ (machine [] { Dev.reset with wait := 0 }).dev.undef = false
      ∧ Instr.dClear.wellFormed Config.W = true ∧ encodeDevice .dClear = some (0, 0x01)
      ∧ ¬((0 : Bit) = 0 ∧ ((0x01 : Byte) = 0x00 ∨ (0x01 : Byte) = 0x02))
      ∧ encodeDevice (.dChar 0x02) = some (1, 0x02) ∧ ¬((1 : Bit) = 0 ∧ ((0x02 : Byte) = 0x00 ∨ (0x02 : Byte) = 0x02)) := by
  decide
theorem test_witness_BusByteIsItsDeviceRow :
    (machine [] (atPlace .row1 3)).dev.Aligned
      ∧ (after (.sendbyte 1 0x41) (machine [] (atPlace .row1 3))).dev.undef = false :=
  ⟨atPlace_aligned _ _, by decide⟩
theorem test_witness_AlarmTransitions :
    (State.reset.ms = 0 ∧ State.reset.trig = 0 ∧ State.reset.dev.undef = false) ∧ ({ State.reset with trig := 1 } : State).trig = 1
      ∧ 1 < (2 : Byte).toNat := by decide
theorem test_witness_AlarmPulsesOncePerRun :
    (∀ i ∈ [Instr.alm 1, .init, .mon 175, .alm 0, .alm 1], IsOperation i)
      ∧ State.reset.ms = 0 ∧ State.reset.trig = 0 ∧ State.reset.buz = 0 :=
  ⟨by simp [IsOperation, Instr.format], rfl, rfl, rfl⟩
theorem test_witness_DelayResult :
    State.reset.ms = 0 ∧ State.reset.dev.undef = false ∧ 1 ≤ (1 : Byte).toNat ∧ (0 : Byte) = 0 ∧ 1 < (2 : Byte).toNat := by decide
theorem test_witness_TwoDecimalText : 0 < (temp 175).den ∧ 0 < (⟨8537, 100⟩ : Temperature).den ∧ 8540 % 10 ≠ 5 := by
  decide
theorem test_witness_MonitorIsItsExpansion :
    (machine (encode Config.W (.mon 51) ++ [0x10]) initialized).port = none
      ∧ (machine (encode Config.W (.mon 51) ++ [0x10]) initialized).seq = .ready
      ∧ (machine (encode Config.W (.mon 51) ++ [0x10]) initialized).ms = 0
      ∧ (machine (encode Config.W (.mon 51) ++ [0x10]) initialized).req.drop
          (machine (encode Config.W (.mon 51) ++ [0x10]) initialized).rp = encode Config.W (.mon 51) ++ [0x10] :=
  ⟨rfl, rfl, rfl, rfl⟩
theorem test_witness_MonitorEndState :
    (machine [] initialized).ms = 0 ∧ (machine [] initialized).buz = 0 ∧ (machine [] initialized).dev.defined
      ∧ (machine [] initialized).dev.Aligned ∧ (machine [] initialized).dev.lines2 = true
      ∧ (machine [] initialized).dev.inc = true ∧ (machine [] initialized).dev.w = Config.W :=
  ⟨rfl, rfl, rfl, initialized_aligned, rfl, rfl, rfl⟩
/-- The same on a display of 20 columns, and one where the texts do not fit. -/
theorem test_witness_MonitorEndState_other_widths :
    ({ initialized with w := 20 } : Dev).Aligned
      ∧ ((status 20 175).length ≤ (20 : Width).val ∧ (value 175).length ≤ (20 : Width).val)
      ∧ ¬(status 8 175).length ≤ (8 : Width).val :=
  ⟨⟨rfl, rfl, rfl, rfl⟩, by decide, by decide⟩
theorem test_witness_DriverIsBlindToDevice :
    (Dev.powerOn 20).w = (machine [] { initialized with w := 20 }).dev.w
      ∧ (Dev.powerOn 8).w ≠ initialized.w ∧ ∀ r, Instr.init ≠ .mon r :=
  ⟨rfl, by decide, fun _ => by simp⟩
/-- A state that meets the invariant, a display with text on it, and the state its step answers. -/
theorem test_witness_StepKeepsInvariant :
    (machine [0x12, 0x41] (atPlace .row1 1)).Inv
      ∧ step (machine [0x12, 0x41] (atPlace .row1 1)) = .next (after (.chr 0x41) (machine [0x12, 0x41] (atPlace .row1 1)))
      :=
  ⟨⟨rfl, rfl, rfl, rfl, rfl, by decide, fun _ => rfl, atPlace_wf (by decide), by decide, by decide⟩, rfl⟩
theorem test_witness_MarksAreSticky :
    step (machine [0x10] { initialized with undef := true })
        = .next (after .init (machine [0x10] { initialized with undef := true }))
      ∧ (machine [0x10] { initialized with undef := true }).dev.undef = true
      ∧ step { refuse (.reservedOpcode 0) (machine [0x00] initialized) with port := some (0, 0x01) }
        = .next (after .dClear (refuse (.reservedOpcode 0) (machine [0x00] initialized)))
      ∧ (refuse (.reservedOpcode 0) (machine [0x00] initialized)).seq = .refused :=
  ⟨rfl, rfl, rfl, rfl⟩
theorem test_witness_WritersOfEachRegister :
    ((∀ v, Instr.init ≠ .alm v) ∧ ∀ r, Instr.init ≠ .mon r) ∧ Instr.dClear.format = .dcmd
      ∧ (Instr.dChar 0).format = .ddata := by
  refine ⟨⟨?_, ?_⟩, rfl, rfl⟩ <;> intro _ <;> simp
theorem test_witness_MicroStepsMeetTheStep :
    (machine [0x20, 0x01] initialized).port = none ∧ (machine [0x20, 0x01] initialized).seq = .ready
      ∧ fetch (machine [0x20, 0x01] initialized) = .run (.alm 1) (machine [0x20, 0x01] initialized)
      ∧ requestActions (.alm 1) 0 Config.W = some (almActions 1 0) ∧ (machine [0x20, 0x01] initialized).ms = 0
      ∧ (eventsOf (almActions 1 0)).length = 3 :=
  ⟨rfl, rfl, rfl, rfl, rfl, rfl⟩
/-- The same in the middle of that request, after its first event: `ms` is 1. -/
theorem test_witness_MicroStepsMeetTheStep_resumed :
    microSteps 1 (machine [0x20, 0x01] initialized) = .next
        { machine [0x20, 0x01] initialized with buz := 1, tr := [.buz 1], ms := 1 }
      ∧ fetch { machine [0x20, 0x01] initialized with buz := 1, tr := [.buz 1], ms := 1 } =
        .run (.alm 1) { machine [0x20, 0x01] initialized with buz := 1, tr := [.buz 1], ms := 1 }
      ∧ (eventsOf (resume 1 (almActions 1 0))).length = 2 :=
  ⟨rfl, rfl, rfl⟩
theorem test_witness_CellSpaceLaws :
    Memory.wf (blankCells Config.W) = true ∧ (1 ≤ 1 ∧ 16 ≤ Config.W.val) ∧ cellOf Config.W 0x8F = some (.row1, 16)
      ∧ cellOf Config.W 0xC0 = some (.row2, 1) ∧ ¬(0x80 ≤ 0x90 ∧ 0x90 < 0x80 + Config.W.val)
      ∧ ¬(0xC0 ≤ 0xD0 ∧ 0xD0 < 0xC0 + Config.W.val) := by decide
theorem test_witness_ShownText :
    ({ initialized with undef := true } : Dev).undef = true ∧ initialized.on = true
      ∧ rowText .row1 initialized = some (spaces 16) := by decide

end Sys2Proof.Tests
end

section
/-! PROOFS of the scope family: the power-on state meets the invariant, and who writes which register. -/

namespace Sys2Proof.Machine

/-! ## The state at power-on -/

theorem Dev.powerOn_wf (w : Width) : (Dev.powerOn w).Wf where
  mem := rfl
  cells := rfl
  cur := by simp

/-- R45: no request and no pulse is under way, and the only wait is the power-on settle itself. -/
theorem State.powerOn_inv (w : Width) : (State.powerOn w).Inv where
  ms := rfl
  en := rfl
  buz := rfl
  devEn := rfl
  hold := rfl
  wait := Nat.le_refl _
  paired := fun _ => rfl
  dev := Dev.powerOn_wf w
  refused := by simp [State.powerOn, State.reset]
  rp := Nat.le_refl _

/-! ## What an operation answers -/

/-- The four kinds of state an operation answers: a request performed to its end, the expansion of `MON`, a byte
at the device, and the bare micro-operations of an internal row. -/
inductive Answers (i : Instr) (s : State) : State → Prop where
  | request {as : List Action} (actions : requestActions i s.trig s.dev.w = some as) :
    Answers i s (perform (i.len s.dev.w) as s)
  | mon {r : BitVec 10} {t : State} (isMon : i = .mon r) (answer : execMon r s = .next t) : Answers i s t
  | device {f : Dev → Dev} (noLen : i.len s.dev.w = 0) (keepsW : ∀ d, (f d).w = d.w) :
    Answers i s (atDevice f s)
  | internal {as : List Action} (isInternal : i.format = .internal) (noLen : i.len s.dev.w = 0)
    (isQuiet : quiet as = true) : Answers i s (runActions as s)

/-- A byte put at the device keeps the columns per row, if the row's own effect does (D13). -/
theorem Dev.deliver_w {f : Dev → Dev} (hf : ∀ d, (f d).w = d.w) (rs : Bit) (b : Byte) (d : Dev) :
    (d.deliver rs b f).w = d.w := by
  unfold Dev.deliver
  split
  · exact hf d.settle
  · rw [Dev.pulsed_w, Dev.pulsed_w]

theorem Dev.cursorRow2_w (off : Nat) (d : Dev) : (d.cursorRow2 off).w = d.w := by
  unfold Dev.cursorRow2; split <;> rfl

theorem Dev.putChar_w (b : Byte) (d : Dev) : (d.putChar b).w = d.w := by
  unfold Dev.putChar
  repeat' split
  all_goals rfl

/-- Every operation answers a next state, of one of the four kinds. -/
theorem exec_answers (i : Instr) (s : State) : ∃ t, exec i s = .next t ∧ Answers i s t := by
  cases i with
  | init | cmd _ | chr _ | cur _ _ | str _ | alm _ | dly _ _ => exact ⟨_, rfl, .request rfl⟩
  | mon _ => exact ⟨_, rfl, .mon rfl rfl⟩
  | dClear | d4bit | dAutoinc | dOnNocursor | d2line | dCursorRow1 _ | dOther _ =>
    exact ⟨_, rfl, .device rfl (Dev.deliver_w (by intro; rfl) _ _)⟩
  | dCursorRow2 off => exact ⟨_, rfl, .device rfl (Dev.deliver_w (Dev.cursorRow2_w off.toNat) _ _)⟩
  | dChar b => exact ⟨_, rfl, .device rfl (Dev.deliver_w (Dev.putChar_w b) _ _)⟩
  | pulse => exact ⟨_, rfl, .internal rfl rfl rfl⟩
  | sendbyte m b => exact ⟨_, rfl, .internal rfl rfl (quiet_sendByte m b)⟩

/-! ## What no operation writes, and how far `rp` moves -/

/-- From `s` to `t` the request pointer moves by `n`, and what no operation writes is the same. -/
structure Advances (n : Nat) (s t : State) : Prop where
  req : t.req = s.req
  seq : t.seq = s.seq
  refused : t.refused = s.refused
  port : t.port = s.port
  w : t.dev.w = s.dev.w
  rp : t.rp = s.rp + n

theorem runActions_advances (as : List Action) (s : State) : Advances 0 s (runActions as s) := by
  constructor <;> simp

theorem perform_advances (n : Nat) (as : List Action) (s : State) : Advances n s (perform n as s) := by
  constructor <;> simp

theorem atDevice_advances {f : Dev → Dev} (hf : ∀ d, (f d).w = d.w) (s : State) :
    Advances 0 s (atDevice f s) :=
  ⟨rfl, rfl, rfl, rfl, hf s.dev, rfl⟩

/-- `MON` moves the pointer past its eight requests (R111, R250). -/
theorem execMon_advances {r : BitVec 10} {s t : State} (h : execMon r s = .next t) :
    Advances ((Instr.mon r).len s.dev.w) s t := by
  cases h
  constructor
  case rp => simp [afterCur, afterStr, afterAlm, afterDly, Instr.len, spaces]; omega
  all_goals simp [afterCur, afterStr, afterAlm, afterDly]

theorem Answers.advances {i : Instr} {s t : State} (h : Answers i s t) :
    Advances (i.len s.dev.w) s t := by
  cases h with
  | request _ => exact perform_advances _ _ s
  | mon isMon answer => subst isMon; exact execMon_advances answer
  | device noLen keepsW => rw [noLen]; exact atDevice_advances keepsW s
  | internal _ noLen _ => rw [noLen]; exact runActions_advances _ s

/-! ## Who leaves the buzzer and the latch alone -/

/-- Of the requests only `ALM` writes `BUZ` or `TRIG` (R23, R24). -/
theorem quiet_of_requestActions {i : Instr} {trig : Bit} {w : Width} {as : List Action}
    (h : requestActions i trig w = some as) (hi : ∀ v, i ≠ .alm v) : quiet as = true := by
  cases i <;> cases h
  case init => rfl
  case cmd b => exact quiet_sendByte 0 b
  case chr b => exact quiet_sendByte 1 b
  case cur row col => exact quiet_cur w row col
  case str text => exact quiet_str text
  case alm v => exact absurd rfl (hi v)
  case dly u k => cases u <;> rfl

theorem Answers.alarm_unchanged {i : Instr} {s t : State} (h : Answers i s t) (halm : ∀ v, i ≠ .alm v)
    (hmon : ∀ r, i ≠ .mon r) : t.buz = s.buz ∧ t.trig = s.trig := by
  cases h with
  | request actions => exact runActions_quiet (quiet_resume s.ms (quiet_of_requestActions actions halm))
  | mon isMon _ => exact absurd isMon (hmon _)
  | device _ _ => exact ⟨rfl, rfl⟩
  | internal _ _ isQuiet => exact runActions_quiet isQuiet

/-! ## Who leaves the bus lines and the byte latch alone -/

/-- The registers of the byte transmission: the bus lines and the byte latch (R20 to R22, R25). -/
def busSide (s : State) : Bit × Bit × Nibble × Byte × Bit := (s.rs, s.en, s.db, s.curByte, s.curMode)

/-- A micro-operation that writes none of the registers of the byte transmission. -/
def Action.offBus : Action → Bool
  | .ev (.rs _) => false
  | .ev (.en _) => false
  | .ev (.db _) => false
  | .latch _ _ => false
  | _ => true

theorem act_busSide {a : Action} (h : a.offBus = true) (s : State) : busSide (act a s) = busSide s := by
  cases a with
  | ev e =>
    cases e with
    | rs _ | en _ | db _ => cases h
    | buz _ | t _ | s _ => rfl
  | latch _ _ => cases h
  | setTrig _ => rfl
  | markUndef => rfl

theorem runActions_busSide {as : List Action} (h : ∀ a ∈ as, a.offBus = true) (s : State) :
    busSide (runActions as s) = busSide s := by
  induction as generalizing s with
  | nil => rfl
  | cons a as ih =>
    rw [List.forall_mem_cons] at h
    rw [runActions_cons, ih h.2, act_busSide h.1]

/-- What is left of a request is a part of it (R29). -/
theorem resume_subset (k : Nat) (as : List Action) : resume k as ⊆ as := by
  induction as generalizing k with
  | nil => cases k <;> exact List.Subset.refl _
  | cons a as ih =>
    cases k with
    | zero => rw [resume_zero]; exact List.Subset.refl _
    | succ k => cases a <;> exact List.subset_cons_of_subset _ (ih _)

theorem perform_busSide {as : List Action} (h : ∀ a ∈ as, a.offBus = true) (n : Nat) (s : State) :
    busSide (perform n as s) = busSide s :=
  runActions_busSide (fun a ha => h a (resume_subset s.ms as ha)) s

theorem almActions_offBus (v trig : Bit) : ∀ a ∈ almActions v trig, a.offBus = true := by
  unfold almActions
  split
  · decide
  · split <;> simp [Action.offBus]

theorem dlyActions_offBus (u : DelayUnit) (k : Byte) : ∀ a ∈ dlyActions u k, a.offBus = true := by
  cases u <;> simp [dlyActions, Action.offBus]

/-- Only the rows of format `req` have the micro-operations of a request. -/
theorem format_of_requestActions {i : Instr} {trig : Bit} {w : Width} {as : List Action}
    (h : requestActions i trig w = some as) : i.format = .req := by
  cases i with
  | init | cmd _ | chr _ | cur _ _ | str _ | alm _ | dly _ _ => rfl
  | mon _ | dClear | d4bit | dAutoinc | dOnNocursor | d2line | dCursorRow1 _ | dCursorRow2 _ | dOther _
  | dChar _ | pulse | sendbyte _ _ => cases h

/-- `ALM`, `DLY` and the bytes at the device leave the lines and the byte latch alone (R40, R64). -/
theorem Answers.busSide_unchanged {i : Instr} {s t : State} (h : Answers i s t)
    (hi : (∃ v, i = .alm v) ∨ (∃ u k, i = .dly u k) ∨ i.format = .dcmd ∨ i.format = .ddata) :
    busSide t = busSide s := by
  cases h with
  | request actions =>
    have hreq := format_of_requestActions actions
    obtain ⟨v, rfl⟩ | ⟨u, k, rfl⟩ | hdev | hdev := hi
    · cases actions; exact perform_busSide (almActions_offBus v s.trig) _ s
    · cases actions; exact perform_busSide (dlyActions_offBus u k) _ s
    · simp [hreq] at hdev
    · simp [hreq] at hdev
  | mon isMon _ => subst isMon; simp [Instr.format] at hi
  | device _ _ => rfl
  | internal isInternal _ _ =>
    obtain ⟨v, rfl⟩ | ⟨u, k, rfl⟩ | hdev | hdev := hi <;> simp_all [Instr.format]

end Sys2Proof.Machine

namespace Sys2Proof.Claims

open Sys2Proof.Machine

/-- Settles O53: the power-on state meets the invariant at every width, and the reset state is that of 16. -/
theorem resetMeetsInvariant : Obligations.ResetMeetsInvariant :=
  ⟨State.powerOn_inv Config.W, rfl, State.powerOn_reset.symm, State.powerOn_inv⟩

/-- Settles O57, by the four kinds of state an operation answers. -/
theorem writersOfEachRegister : Obligations.WritersOfEachRegister := by
  intro i s
  obtain ⟨t, ht, answers⟩ := exec_answers i s
  obtain ⟨req, seq, refused, port, w, rp⟩ := answers.advances
  refine ⟨t, ht, req, seq, refused, port, w, rp, answers.alarm_unchanged, fun hi => ?_⟩
  simpa [busSide] using answers.busSide_unchanged hi

end Sys2Proof.Claims
end

section
/-! PROOFS of the state family: what the request decoder reads, and the five kinds of step. -/

namespace Sys2Proof

/-! ## What the request decoder reads -/

/-- A request has as many bytes as its length says (R91, R102). -/
theorem encodeRequest_length {i : Instr} (h : i.format = .req) (w : Width) :
    (encodeRequest i).length = i.len w := by
  cases i with
  | init => exact Laws.EncodeLength.init w (.inl h)
  | cmd b => exact Laws.EncodeLength.cmd b w (.inl h)
  | chr b => exact Laws.EncodeLength.chr b w (.inl h)
  | cur row col => exact Laws.EncodeLength.cur row col w (.inl h)
  | str text => exact Laws.EncodeLength.str text w (.inl h)
  | alm v => exact Laws.EncodeLength.alm v w (.inl h)
  | dly u k => exact Laws.EncodeLength.dly u k w (.inl h)
  | mon _ | dClear | d4bit | dAutoinc | dOnNocursor | d2line | dCursorRow1 _ | dCursorRow2 _ | dOther _
  | dChar _ | pulse | sendbyte _ _ => cases h

/-- The decoder reads back what the encoder wrote, whatever follows it (R92 to R98, R102). -/
theorem decodeRequest_encodeRequest {w : Width} {i : Instr} (hreq : i.format = .req)
    (hwf : i.wellFormed w = true) (rest : List Byte) : decodeRequest (encodeRequest i ++ rest) = .ok i rest := by
  cases i with
  | init | cmd _ | chr _ | cur _ _ => rfl
  | str text =>
    have hlen : text.length ≤ 255 := of_decide_eq_true hwf
    have hn : (BitVec.ofNat 8 text.length).toNat = text.length := by simp; omega
    simp [encodeRequest, decodeRequest, decodeStr, hn]
  | alm v =>
    obtain rfl | rfl := BitVec.eq_zero_or_eq_one v
    · rfl
    · rfl
  | dly u k => cases u <;> rfl
  | mon _ | dClear | d4bit | dAutoinc | dOnNocursor | d2line | dCursorRow1 _ | dCursorRow2 _ | dOther _
  | dChar _ | pulse | sendbyte _ _ => cases hreq

/-- If the answer `d` is a request, it is well formed and the bytes `bs` are its encoding and then the rest
(R112). -/
def ReadsRequest (bs : List Byte) (d : Decoded) : Prop :=
  ∀ (w : Width) (i : Instr) (rest : List Byte), d = .ok i rest →
    i.format = .req ∧ i.wellFormed w = true ∧ bs = encodeRequest i ++ rest

theorem decodeStr_reads (bs : List Byte) : ReadsRequest (0x14 :: bs) (decodeStr bs) := by
  intro w i rest h
  cases bs with
  | nil => cases h
  | cons n bs =>
    simp only [decodeStr] at h
    split at h
    · rename_i hn
      cases h
      have hlen : (bs.take n.toNat).length = n.toNat := List.length_take_of_le hn
      refine ⟨rfl, decide_eq_true (by rw [hlen]; omega), ?_⟩
      simp [encodeRequest, hlen]
    · cases h

theorem decodeAlm_reads (bs : List Byte) : ReadsRequest (0x20 :: bs) (decodeAlm bs) := by
  intro w i rest h
  cases bs with
  | nil => cases h
  | cons v bs =>
    simp only [decodeAlm] at h
    split at h
    · cases h; subst_vars; exact ⟨rfl, rfl, rfl⟩
    · split at h
      · cases h; subst_vars; exact ⟨rfl, rfl, rfl⟩
      · cases h

theorem decodeDly_reads (bs : List Byte) : ReadsRequest (0x30 :: bs) (decodeDly bs) := by
  intro w i rest h
  obtain _ | ⟨u, _ | ⟨k, bs⟩⟩ := bs
  · cases h
  · cases h
  · simp only [decodeDly] at h
    split at h
    · cases h; subst_vars; exact ⟨rfl, rfl, rfl⟩
    · split at h
      · cases h; subst_vars; exact ⟨rfl, rfl, rfl⟩
      · cases h

/-- No bytes but its encoding stand for a request, and only well-formed requests are decoded. -/
theorem decodeRequest_reads (bs : List Byte) : ReadsRequest bs (decodeRequest bs) := by
  intro w i rest h
  cases bs with
  | nil => cases h
  | cons op bs =>
    simp only [decodeRequest] at h
    split at h
    · cases h; subst_vars; exact ⟨rfl, rfl, rfl⟩
    split at h
    · subst_vars; cases bs <;> cases h; exact ⟨rfl, rfl, rfl⟩
    split at h
    · subst_vars; cases bs <;> cases h; exact ⟨rfl, rfl, rfl⟩
    split at h
    · subst_vars
      obtain _ | ⟨row, _ | ⟨col, bs⟩⟩ := bs <;> cases h
      exact ⟨rfl, rfl, rfl⟩
    split at h
    · subst_vars; exact decodeStr_reads bs w i rest h
    split at h
    · subst_vars; exact decodeAlm_reads bs w i rest h
    split at h
    · subst_vars; exact decodeDly_reads bs w i rest h
    · cases h

end Sys2Proof

namespace Sys2Proof.Machine

/-! ## What `fetch` finds -/

theorem fetch_of_port {s : State} {rs : Bit} {b : Byte} (h : s.port = some (rs, b)) :
    fetch s = .run (decodeDevice s.dev.w rs b) { s with port := none } := by simp only [fetch, h]

theorem fetch_of_ready {s : State} (hp : s.port = none) (hs : s.seq = .ready) : fetch s = fetchRequest s := by
  simp only [fetch, hp, hs]

theorem fetch_of_ended {s : State} (hp : s.port = none) (hs : s.seq = .ended) : fetch s = .rest s := by
  simp only [fetch, hp, hs]

theorem fetch_of_refused {s : State} (hp : s.port = none) (hs : s.seq = .refused) :
    fetch s = .stop (.requestRefused s.refused) := by simp only [fetch, hp, hs]

theorem fetchRequest_of_end {s : State} (h : s.rp = s.req.length) : fetchRequest s = .rest (endRun s) :=
  if_pos h

/-- Bytes that decode to a request are at least one, so they do not stand at the stream's end. -/
theorem fetchRequest_of_decoded {s : State} {i : Instr} {rest : List Byte}
    (h : decodeRequest (s.req.drop s.rp) = .ok i rest) : fetchRequest s = .run i s := by
  have hne : s.rp ≠ s.req.length := by
    intro he
    rw [he, List.drop_length] at h
    cases h
  simp only [fetchRequest, if_neg hne, h]

/-- The three things a ready sequencer finds at `rp`: a request, the end of the stream, or a reason to refuse
(R99 to R102, R314). -/
theorem fetchRequest_cases (s : State) :
    (∃ i rest, decodeRequest (s.req.drop s.rp) = .ok i rest ∧ fetchRequest s = .run i s)
      ∨ fetchRequest s = .rest (endRun s) ∨ ∃ reason, fetchRequest s = .rest (refuse reason s) := by
  by_cases hend : s.rp = s.req.length
  · exact .inr (.inl (fetchRequest_of_end hend))
  · cases hd : decodeRequest (s.req.drop s.rp) with
    | ok i rest => exact .inl ⟨i, rest, rfl, fetchRequest_of_decoded hd⟩
    | reservedOpcode _ | reservedAlarmOperand _ | reservedDelayUnit _ | truncated =>
      exact .inr (.inr ⟨_, by simp only [fetchRequest, if_neg hend, hd]; rfl⟩)

/-! ## A byte at the device's port -/

/-- A byte put at the device as a whole: received in 4-bit mode, seen as its two pulses before (R185, R184). -/
def Dev.arrive (rs : Bit) (b : Byte) (d : Dev) : Dev :=
  if d.if4 then Dev.receive rs b d else (d.pulsed rs (hiNibble b)).pulsed rs (loNibble b)

/-- A row's delivery is the arrival of its byte, if the row's effect is what receiving the byte does. -/
theorem Dev.deliver_eq_arrive {rs : Bit} {b : Byte} {f : Dev → Dev} {d : Dev}
    (h : f d.settle = Dev.receive rs b d) : d.deliver rs b f = d.arrive rs b := by
  simp only [Dev.deliver, Dev.arrive, h]

/-- The offset of a cursor byte from its row's base fits the six bits of the device row's operand and gives the
byte back (R63, R192, R193). -/
theorem cursor_offset_and_byte {w : Width} {base b : Byte}
    (h : base.toNat ≤ b.toNat ∧ b.toNat < base.toNat + w.val) :
    (BitVec.ofNat 6 (b.toNat - base.toNat)).toNat = b.toNat - base.toNat
      ∧ base + (BitVec.ofNat 6 (b.toNat - base.toNat)).zeroExtend 8 = b := by
  have hw := w.isLt
  have hb := b.isLt
  have hoff : (BitVec.ofNat 6 (b.toNat - base.toNat)).toNat = b.toNat - base.toNat := by
    rw [BitVec.toNat_ofNat]; omega
  refine ⟨hoff, BitVec.eq_of_toNat_eq ?_⟩
  rw [BitVec.toNat_add, BitVec.zeroExtend_eq_setWidth, BitVec.toNat_setWidth, hoff]
  omega

/-- The device row a command byte decodes to delivers the byte, with the effect of receiving it (R186 to R194). -/
theorem exec_decodeCommandByte (b : Byte) (s : State) : ∃ f : Dev → Dev,
    f s.dev.settle = s.dev.receiveCommand b
      ∧ exec (decodeCommandByte s.dev.w b) s = .next (atDevice (Dev.deliver 0 b f) s) := by
  unfold decodeCommandByte Dev.receiveCommand
  split_ifs with hclear h4bit hinc hon h2line hrow1 hrow2
  · exact ⟨_, rfl, by rw [hclear]; rfl⟩
  · exact ⟨_, rfl, by rw [h4bit]; rfl⟩
  · exact ⟨_, rfl, by rw [hinc]; rfl⟩
  · exact ⟨_, rfl, by rw [hon]; rfl⟩
  · exact ⟨_, rfl, by rw [h2line]; rfl⟩
  · obtain ⟨hoff, hbyte⟩ := cursor_offset_and_byte (of_decide_eq_true hrow1)
    exact ⟨_, rfl, by simp only [exec, execDCursorRow1, row1Offset, hoff, hbyte]⟩
  · obtain ⟨hoff, hbyte⟩ := cursor_offset_and_byte (of_decide_eq_true hrow2)
    exact ⟨_, rfl, by simp only [exec, execDCursorRow2, row2Offset, hoff, hbyte]⟩
  · exact ⟨_, rfl, rfl⟩

/-- The device row a byte at the port decodes to is the arrival of that byte (R186 to R195). -/
theorem exec_decodeDevice (rs : Bit) (b : Byte) (s : State) :
    exec (decodeDevice s.dev.w rs b) s = .next (atDevice (Dev.arrive rs b) s) := by
  obtain rfl | rfl : rs = 0 ∨ rs = 1 := BitVec.eq_zero_or_eq_one rs
  · obtain ⟨f, heffect, hexec⟩ := exec_decodeCommandByte b s
    rw [atDevice, ← Dev.deliver_eq_arrive (rs := 0) heffect]
    exact hexec
  · rw [atDevice, ← Dev.deliver_eq_arrive (rs := 1) (b := b) (f := Dev.putChar b) rfl]
    rfl

/-! ## What a step can do -/

/-- A row with the micro-operations of a request performs them (R28). -/
theorem exec_of_requestActions {i : Instr} {s : State} {as : List Action}
    (h : requestActions i s.trig s.dev.w = some as) : exec i s = .next (perform (i.len s.dev.w) as s) := by
  cases i <;> cases h <;> rfl

/-- Every row of format `req` has the micro-operations of a request. -/
theorem requestActions_of_format {i : Instr} (h : i.format = .req) (trig : Bit) (w : Width) :
    ∃ as, requestActions i trig w = some as := by
  cases i with
  | init | cmd _ | chr _ | cur _ _ | str _ | alm _ | dly _ _ => exact ⟨_, rfl⟩
  | mon _ | dClear | d4bit | dAutoinc | dOnNocursor | d2line | dCursorRow1 _ | dCursorRow2 _ | dOther _
  | dChar _ | pulse | sendbyte _ _ => cases h

/-- The five kinds of step that answer a next state. -/
inductive Steps (s : State) : State → Prop where
  /-- the byte at the model's port arrives at the device (log entry 3) -/
  | byte {rs : Bit} {b : Byte} (port : s.port = some (rs, b)) :
    Steps s (atDevice (Dev.arrive rs b) { s with port := none })
  /-- the request at `rp` is performed (R28) -/
  | request {i : Instr} {rest : List Byte} {as : List Action} (ready : s.seq = .ready)
    (decoded : decodeRequest (s.req.drop s.rp) = .ok i rest)
    (actions : requestActions i s.trig s.dev.w = some as) : Steps s (perform (i.len s.dev.w) as s)
  /-- the stream is at its end (R314) -/
  | ends (ready : s.seq = .ready) : Steps s (endRun s)
  /-- the bytes at `rp` are refused (R99 to R101) -/
  | refuses (ready : s.seq = .ready) (reason : RefusedReason) : Steps s (refuse reason s)
  /-- an ended machine stays as it is (R27) -/
  | ended (ended : s.seq = .ended) : Steps s s

theorem step_cases {s t : State} (h : step s = .next t) : Steps s t := by
  unfold step at h
  cases hp : s.port with
  | some p =>
    rw [fetch_of_port hp] at h
    cases (exec_decodeDevice p.1 p.2 { s with port := none }).symm.trans h
    exact .byte hp
  | none =>
    cases hs : s.seq with
    | ready =>
      rw [fetch_of_ready hp hs] at h
      obtain ⟨i, rest, hd, hf⟩ | hf | ⟨reason, hf⟩ := fetchRequest_cases s
      · obtain ⟨hreq, -, -⟩ := decodeRequest_reads _ s.dev.w i rest hd
        obtain ⟨as, has⟩ := requestActions_of_format hreq s.trig s.dev.w
        rw [hf] at h
        cases (exec_of_requestActions has).symm.trans h
        exact .request hs hd has
      · rw [hf] at h; cases h; exact .ends hs
      · rw [hf] at h; cases h; exact .refuses hs reason
    | ended => rw [fetch_of_ended hp hs] at h; cases h; exact .ended hs
    | refused => rw [fetch_of_refused hp hs] at h; cases h

end Sys2Proof.Machine

namespace Sys2Proof.Claims

open Sys2Proof.Machine

/-- Settles O6: the decoder reads the request back, and a ready sequencer performs what it reads. -/
theorem stepRunsRequestAtPointer : Obligations.StepRunsRequestAtPointer := by
  intro s i rest hport hready hreq hwf hbytes
  have hdecoded : decodeRequest (s.req.drop s.rp) = .ok i rest := by
    rw [hbytes]; exact decodeRequest_encodeRequest hreq hwf rest
  simp only [step, fetch_of_ready hport hready, fetchRequest_of_decoded hdecoded]

/-- Settles O12, by what `fetch` finds at each status of the sequencer. -/
theorem streamEndsAtItsLength : Obligations.StreamEndsAtItsLength := by
  refine ⟨fun s hport hready hend => ?_, fun s hport hended => ?_, fun s hport hrefused => ?_⟩
  · simp only [step, fetch_of_ready hport hready, fetchRequest_of_end hend, endRun]
  · simp only [step, fetch_of_ended hport hended]
  · simp only [step, fetch_of_refused hport hrefused]

/-- Settles O14: each value of the table as `State.reset` has it; the cell space is empty, so every cell reads as
unknown. -/
theorem resetState : Obligations.ResetState := by
  have cells : ∀ row col, State.reset.dev.cellAt row col = none := fun _ _ => rfl
  exact ⟨rfl, rfl, rfl, rfl, rfl, rfl, rfl, rfl, rfl, rfl, rfl, rfl, rfl, rfl, rfl, rfl, rfl, rfl, cells, rfl,
    rfl⟩

end Sys2Proof.Claims
end

section
/-! PROOFS of the state family: every step keeps the invariant. -/

namespace Sys2Proof.Machine

/-! ## The device between requests -/

/-- What the invariant says of the device: no pulse is under way, no wait is longer than the power-on settle,
pairing has not slipped while the device is defined, and the cell space and the cursor are in range. -/
structure Dev.Idle (d : Dev) : Prop where
  en : d.en = 0
  hold : d.hold = 0
  wait : d.wait ≤ Config.POWERON
  paired : d.undef = false → d.ph = .hi
  wf : d.Wf

theorem Dev.pulsed_wf {rs : Bit} {n : Nibble} {d : Dev} (h : d.Wf) : (d.pulsed rs n).Wf := by
  have hrise : d.rise.Wf := Dev.react_wf (rs := rs) (n := n) (e := .en 1) h
  have hheld : (d.rise.delayTu Config.HOLD).Wf := Dev.react_wf (rs := rs) (n := n) (e := .t Config.HOLD) hrise
  exact Dev.react_wf (rs := rs) (n := n) (e := .en 0) hheld

theorem Dev.defined_before_pulsed {rs : Bit} {n : Nibble} {d : Dev} (h : (d.pulsed rs n).undef = false) :
    d.undef = false :=
  Bool.eq_false_of_not_eq_true fun hu => by simp [Dev.pulsed_undef hu] at h

theorem Dev.settled_before_pulsed {rs : Bit} {n : Nibble} {d : Dev} (he : d.en = 0)
    (h : (d.pulsed rs n).undef = false) : d.wait = 0 :=
  Nat.eq_zero_of_not_pos fun hw => by simp [Dev.pulsed_of_wait he hw] at h

/-- In 4-bit mode the pair of a high nibble is kept for the low one (R185). -/
theorem Dev.takePair_high (rs : Bit) (n : Nibble) {d : Dev} (h4 : d.if4 = true) (hph : d.ph = .hi) :
    (d.takePair rs n).if4 = true ∧ (d.takePair rs n).ph = .lo := by
  simp only [Dev.takePair, h4, if_true, Dev.takePairIn4bit, hph, and_true]

/-- In 4-bit mode the pair of a low nibble completes a byte, with its mode line or not (R185). -/
theorem Dev.takePair_low (rs : Bit) (n : Nibble) {d : Dev} (h4 : d.if4 = true) (hph : d.ph = .lo) :
    (d.takePair rs n).ph = .hi := by
  simp only [Dev.takePair, if_pos h4, Dev.takePairIn4bit, hph]
  split
  · obtain ⟨-, -, hphase, -⟩ := Dev.receive_rest rs (joinNibbles d.hn n) { d with ph := .hi }
    exact hphase
  · rfl

/-- Before 4-bit mode a pair leaves the phase high, and where it begins 4-bit mode it asks for a wait (R184). -/
theorem Dev.takePair_before4bit (rs : Bit) (n : Nibble) {d : Dev} (h4 : d.if4 = false) (hph : d.ph = .hi) :
    (d.takePair rs n).ph = .hi ∧ ((d.takePair rs n).if4 = false ∨ 0 < (d.takePair rs n).wait) := by
  unfold Dev.takePair Dev.takePairBefore4bit
  rw [if_neg (by simp [h4])]
  split_ifs
  · exact ⟨hph, .inl h4⟩
  · exact ⟨rfl, .inr (Nat.zero_lt_succ 1)⟩
  · exact ⟨hph, .inl h4⟩

theorem Dev.pulsed_high (rs : Bit) (n : Nibble) {d : Dev} (he : d.en = 0) (h4 : d.if4 = true) (hph : d.ph = .hi) :
    (d.pulsed rs n).if4 = true ∧ (d.pulsed rs n).ph = .lo := by
  rw [Dev.pulsed_of_low he]
  exact Dev.takePair_high rs n h4 hph

theorem Dev.pulsed_low (rs : Bit) (n : Nibble) {d : Dev} (he : d.en = 0) (h4 : d.if4 = true) (hph : d.ph = .lo) :
    (d.pulsed rs n).ph = .hi := by
  rw [Dev.pulsed_of_low he]
  exact Dev.takePair_low rs n h4 hph

theorem Dev.pulsed_before4bit (rs : Bit) (n : Nibble) {d : Dev} (he : d.en = 0) (h4 : d.if4 = false)
    (hph : d.ph = .hi) :
    (d.pulsed rs n).ph = .hi ∧ ((d.pulsed rs n).if4 = false ∨ 0 < (d.pulsed rs n).wait) := by
  rw [Dev.pulsed_of_low he]
  exact Dev.takePair_before4bit rs n h4 hph

/-- Two pulses on a device between bytes leave it between bytes: in 4-bit mode they are one byte, before it each
is a pair of its own, and a switch to 4-bit mode at the first is a wait that the second breaks (R66, R308). -/
theorem Dev.pulsed_pulsed_paired (rs : Bit) (n m : Nibble) {d : Dev} (he : d.en = 0)
    (he' : (d.pulsed rs n).en = 0) (hpaired : d.undef = false → d.ph = .hi)
    (hdef : ((d.pulsed rs n).pulsed rs m).undef = false) : ((d.pulsed rs n).pulsed rs m).ph = .hi := by
  have hph : d.ph = .hi := hpaired (Dev.defined_before_pulsed (Dev.defined_before_pulsed hdef))
  cases h4 : d.if4 with
  | true =>
    obtain ⟨h4', hlo⟩ := Dev.pulsed_high rs n he h4 hph
    exact Dev.pulsed_low rs m he' h4' hlo
  | false =>
    obtain ⟨hhi, h4' | hwait⟩ := Dev.pulsed_before4bit rs n he h4 hph
    · exact (Dev.pulsed_before4bit rs m he' h4' hhi).1
    · rw [Dev.settled_before_pulsed he' hdef] at hwait
      cases hwait

theorem Dev.Idle.pulsed_pulsed {d : Dev} (h : d.Idle) (rs : Bit) (n m : Nibble) :
    ((d.pulsed rs n).pulsed rs m).Idle := by
  obtain ⟨he1, -, hw1⟩ := Dev.pulsed_rest rs n h.en h.wait
  obtain ⟨he2, hh2, hw2⟩ := Dev.pulsed_rest rs m he1 hw1
  exact ⟨he2, hh2, hw2, Dev.pulsed_pulsed_paired rs n m h.en he1 h.paired, Dev.pulsed_wf (Dev.pulsed_wf h.wf)⟩

theorem Dev.Idle.delayTu {d : Dev} (h : d.Idle) (k : Nat) : (d.delayTu k).Idle where
  en := h.en
  hold := by simp [Dev.delayTu, h.hold]
  wait := Nat.le_trans (Nat.sub_le ..) h.wait
  paired := h.paired
  wf := Dev.react_wf (rs := 0) (n := 0) (e := .t k) h.wf

theorem Dev.Idle.delayS {d : Dev} (h : d.Idle) (k : Nat) : (d.delayS k).Idle := by
  unfold Dev.delayS
  split
  · exact h
  · exact ⟨h.en, rfl, Nat.zero_le _, h.paired, ⟨h.wf.mem, h.wf.cells, h.wf.cur⟩⟩

theorem Dev.Idle.markUndef {d : Dev} (h : d.Idle) : d.markUndef.Idle :=
  ⟨h.en, h.hold, h.wait, (by simp [Dev.markUndef]), Dev.markUndef_wf h.wf⟩

theorem Dev.Idle.byteSent {d : Dev} (h : d.Idle) (rs : Bit) (b : Byte) : (d.byteSent rs b).Idle :=
  (h.pulsed_pulsed rs _ _).delayTu _

theorem Dev.Idle.receive {d : Dev} (h : d.Idle) (rs : Bit) (b : Byte) : (Dev.receive rs b d).Idle := by
  obtain ⟨he, hh, hph, hw⟩ := Dev.receive_rest rs b d
  refine ⟨he.trans h.en, hh.trans h.hold, Nat.le_trans hw (by decide), fun hdef => hph.trans (h.paired ?_),
    Dev.receive_wf h.wf⟩
  exact Bool.eq_false_of_not_eq_true fun hu => by simp [Dev.receive_undef hu] at hdef

theorem Dev.Idle.arrive {d : Dev} (h : d.Idle) (rs : Bit) (b : Byte) : (d.arrive rs b).Idle := by
  unfold Dev.arrive
  split
  · exact h.receive rs b
  · exact h.pulsed_pulsed rs _ _

/-! ## The lines and the device between requests -/

/-- `EN` and `BUZ` are low and the device is between bytes (R131, R223, R308). -/
structure State.AtRest (s : State) : Prop where
  en : s.en = 0
  buz : s.buz = 0
  dev : s.dev.Idle

theorem State.AtRest.sendByte {s : State} (h : s.AtRest) (m : Bit) (b : Byte) :
    (runActions (sendByteActions m b) s).AtRest := by
  rw [runActions_sendByte]
  exact ⟨rfl, h.buz, h.dev.byteSent m b⟩

theorem State.AtRest.delayTu {s : State} (h : s.AtRest) (k : Nat) : (runActions [.ev (.t k)] s).AtRest :=
  ⟨h.en, h.buz, h.dev.delayTu k⟩

theorem State.AtRest.init {s : State} (h : s.AtRest) : (runActions initActions s).AtRest := by
  simp only [initActions, runActions_append]
  exact ((((((h.delayTu _).sendByte _ _).sendByte _ _).sendByte _ _).sendByte _ _).sendByte _ _).delayTu _

theorem State.AtRest.cur {s : State} (h : s.AtRest) (w : Width) (row col : Byte) :
    (runActions (curActions w row col) s).AtRest := by
  rw [runActions_cur]
  refine State.AtRest.sendByte ?_ 0 _
  refine ⟨h.en, h.buz, ?_⟩
  split
  · exact h.dev
  · exact h.dev.markUndef

theorem State.AtRest.str {s : State} (h : s.AtRest) (text : List Byte) :
    (runActions (strActions text) s).AtRest := by
  induction text generalizing s with
  | nil => exact h
  | cons b bs ih =>
    rw [strActions, List.flatMap_cons, runActions_append]
    exact ih (h.sendByte 1 b)

theorem State.AtRest.alm {s : State} (h : s.AtRest) (v : Bit) :
    (runActions (almActions v s.trig) s).AtRest := by
  rw [runActions_alm]
  split_ifs
  · exact ⟨h.en, rfl, h.dev.delayS 1⟩
  · exact ⟨h.en, h.buz, h.dev⟩
  · exact h

theorem State.AtRest.dly {s : State} (h : s.AtRest) (u : DelayUnit) (k : Byte) :
    (runActions (dlyActions u k) s).AtRest := by
  cases u with
  | timeUnits => exact h.delayTu _
  | seconds => exact ⟨h.en, h.buz, h.dev.delayS _⟩

/-- Every request from between requests ends between requests. -/
theorem State.AtRest.request {s : State} (h : s.AtRest) {i : Instr} {as : List Action}
    (hi : requestActions i s.trig s.dev.w = some as) : (runActions as s).AtRest := by
  cases i <;> cases hi
  case init => exact h.init
  case cmd b => exact h.sendByte 0 b
  case chr b => exact h.sendByte 1 b
  case cur row col => exact h.cur s.dev.w row col
  case str text => exact h.str text
  case alm v => exact h.alm v
  case dly u k => exact h.dly u k

/-! ## The invariant -/

theorem State.Inv.atRest {s : State} (h : s.Inv) : s.AtRest :=
  ⟨h.en, h.buz, ⟨h.devEn, h.hold, h.wait, h.paired, h.dev⟩⟩

theorem State.AtRest.inv {s : State} (h : s.AtRest) (ms : s.ms = 0)
    (refused : s.seq = .refused ↔ s.refused.isSome = true) (rp : s.rp ≤ s.req.length) : s.Inv :=
  ⟨ms, h.en, h.buz, h.dev.en, h.dev.hold, h.dev.wait, h.dev.paired, h.dev.wf, refused, rp⟩

/-- A request that decodes at `rp` ends within the stream (R28, R101). -/
theorem rp_add_len_le {s : State} {i : Instr} {rest : List Byte} (hrp : s.rp ≤ s.req.length)
    (h : decodeRequest (s.req.drop s.rp) = .ok i rest) : s.rp + i.len s.dev.w ≤ s.req.length := by
  obtain ⟨hreq, -, hbytes⟩ := decodeRequest_reads _ s.dev.w i rest h
  have hlen := congrArg List.length hbytes
  rw [List.length_drop, List.length_append, encodeRequest_length hreq s.dev.w] at hlen
  omega

theorem Steps.inv {s t : State} (h : Steps s t) (hs : s.Inv) : t.Inv := by
  have rest := hs.atRest
  cases h with
  | byte _ => exact State.AtRest.inv ⟨rest.en, rest.buz, rest.dev.arrive _ _⟩ hs.ms hs.refused hs.rp
  | request _ decoded actions =>
    rw [perform_of_ms hs.ms]
    have performed := rest.request actions
    refine State.AtRest.inv ⟨performed.en, performed.buz, performed.dev⟩ rfl ?_ ?_
    · simpa using hs.refused
    · simpa using rp_add_len_le hs.rp decoded
  | ends ready =>
    refine State.AtRest.inv ⟨rest.en, rest.buz, rest.dev⟩ hs.ms ?_ hs.rp
    have unmarked : ¬ s.refused.isSome = true := fun marked => by cases ready.symm.trans (hs.refused.mpr marked)
    exact iff_of_false nofun unmarked
  | refuses _ reason => exact State.AtRest.inv ⟨rest.en, rest.buz, rest.dev⟩ hs.ms (by simp [refuse]) hs.rp
  | ended _ => exact hs

end Sys2Proof.Machine

namespace Sys2Proof.Claims

open Sys2Proof.Machine

/-- Settles O54, by the five kinds of step that answer a next state. -/
theorem stepKeepsInvariant : Obligations.StepKeepsInvariant :=
  fun _ _ hs hstep => (step_cases hstep).inv hs

end Sys2Proof.Claims
end

section
/-! PROOFS of the state family: the lines go where the events of the trace say. -/

namespace Sys2Proof.Machine

/-- A transitive relation that every performed request meets is met by `MON`, which is eight of them (R250). -/
theorem execMon_rel {R : State → State → Prop} (trans : ∀ {s t u}, R s t → R t u → R s u)
    (performs : ∀ n as s, R s (perform n as s)) {r : BitVec 10} {s t : State} (h : execMon r s = .next t) :
    R s t := by
  cases h
  iterate 7 refine trans ?_ (performs _ _ _)
  exact performs _ _ _

end Sys2Proof.Machine

namespace Sys2Proof.Claims

open Sys2Proof.Machine

/-! ## The lines and the trace -/

theorem rsAfter_append (v : Bit) (es fs : List Event) : rsAfter v (es ++ fs) = rsAfter (rsAfter v es) fs := by
  induction es generalizing v with
  | nil => rfl
  | cons e es ih => cases e <;> exact ih _

theorem enAfter_append (v : Bit) (es fs : List Event) : enAfter v (es ++ fs) = enAfter (enAfter v es) fs := by
  induction es generalizing v with
  | nil => rfl
  | cons e es ih => cases e <;> exact ih _

theorem dbAfter_append (v : Nibble) (es fs : List Event) : dbAfter v (es ++ fs) = dbAfter (dbAfter v es) fs := by
  induction es generalizing v with
  | nil => rfl
  | cons e es ih => cases e <;> exact ih _

theorem buzAfter_append (v : Bit) (es fs : List Event) : buzAfter v (es ++ fs) = buzAfter (buzAfter v es) fs := by
  induction es generalizing v with
  | nil => rfl
  | cons e es ih => cases e <;> exact ih _

/-- From `s` to `t` the trace grows by `evs`, and the lines go where these events say (R20 to R23, R30). -/
structure Follows (evs : List Event) (s t : State) : Prop where
  tr : t.tr = s.tr ++ evs
  rs : t.rs = rsAfter s.rs evs
  en : t.en = enAfter s.en evs
  db : t.db = dbAfter s.db evs
  buz : t.buz = buzAfter s.buz evs

theorem Follows.refl (s : State) : Follows [] s s := ⟨by simp, rfl, rfl, rfl, rfl⟩

theorem Follows.trans {es fs : List Event} {s t u : State} (h : Follows es s t) (h' : Follows fs t u) :
    Follows (es ++ fs) s u where
  tr := by rw [h'.tr, h.tr, List.append_assoc]
  rs := by rw [h'.rs, h.rs, rsAfter_append]
  en := by rw [h'.en, h.en, enAfter_append]
  db := by rw [h'.db, h.db, dbAfter_append]
  buz := by rw [h'.buz, h.buz, buzAfter_append]

theorem act_follows (a : Action) (s : State) : Follows (eventsOf [a]) s (act a s) := by
  cases a with
  | ev e => cases e <;> exact ⟨rfl, rfl, rfl, rfl, rfl⟩
  | latch _ _ | setTrig _ | markUndef => exact ⟨by simp, rfl, rfl, rfl, rfl⟩

theorem runActions_follows (as : List Action) (s : State) : Follows (eventsOf as) s (runActions as s) := by
  induction as generalizing s with
  | nil => exact .refl s
  | cons a as ih =>
    rw [eventsOf_cons]
    exact (act_follows a s).trans (ih (act a s))

theorem perform_follows (n : Nat) (as : List Action) (s : State) :
    Follows (eventsOf (resume s.ms as)) s (perform n as s) := by
  obtain ⟨tr, rs, en, db, buz⟩ := runActions_follows (resume s.ms as) s
  exact ⟨tr, rs, en, db, buz⟩

theorem answers_follow {i : Instr} {s t : State} (h : Answers i s t) : ∃ evs, Follows evs s t := by
  cases h with
  | request _ => exact ⟨_, perform_follows _ _ s⟩
  | mon _ answer =>
    exact execMon_rel (R := fun s t => ∃ evs, Follows evs s t) (fun ⟨_, h⟩ ⟨_, h'⟩ => ⟨_, h.trans h'⟩)
      (fun n as s => ⟨_, perform_follows n as s⟩) answer
  | device _ _ => exact ⟨[], (Follows.refl s).tr, rfl, rfl, rfl, rfl⟩
  | internal _ _ _ => exact ⟨_, runActions_follows _ s⟩

/-- Settles O19, by the four kinds of state an operation answers. -/
theorem linesFollowTheTrace : Obligations.LinesFollowTheTrace := by
  intro i s
  obtain ⟨t, ht, answers⟩ := exec_answers i s
  obtain ⟨evs, tr, rs, en, db, buz⟩ := answers_follow answers
  exact ⟨t, evs, ht, tr, rs, en, db, buz⟩

end Sys2Proof.Claims
end

section
/-! PROOFS of the state family: the marks of undefined behaviour and of refusal stay. -/

namespace Sys2Proof.Machine

theorem Dev.arrive_undef {rs : Bit} {b : Byte} {d : Dev} (h : d.undef = true) : (d.arrive rs b).undef = true := by
  unfold Dev.arrive
  split
  · exact Dev.receive_undef h
  · exact Dev.pulsed_undef (Dev.pulsed_undef h)

/-- No step clears `dev.undef` (R39, R197). -/
theorem Steps.undef {s t : State} (h : Steps s t) (hu : s.dev.undef = true) : t.dev.undef = true := by
  cases h with
  | byte _ => exact Dev.arrive_undef hu
  | request _ _ _ => exact perform_undef hu
  | ends _ | refuses _ _ | ended _ => exact hu

/-- A refused sequencer performs nothing, so its status and its mark stay (R27, R46). -/
theorem Steps.refused {s t : State} (h : Steps s t) (hs : s.seq = .refused) :
    t.refused = s.refused ∧ t.seq = .refused := by
  cases h with
  | byte _ => exact ⟨rfl, hs⟩
  | request ready _ _ | ends ready | refuses ready _ => cases ready.symm.trans hs
  | ended ended => cases ended.symm.trans hs

end Sys2Proof.Machine

namespace Sys2Proof.Claims

open Sys2Proof.Machine

/-- Settles O55, by the five kinds of step that answer a next state. -/
theorem marksAreSticky : Obligations.MarksAreSticky :=
  fun _ _ hstep => ⟨(step_cases hstep).undef, (step_cases hstep).refused⟩

end Sys2Proof.Claims
end

section
/-! PROOFS of the state family: the driver is blind to the device. -/

namespace Sys2Proof.Machine

/-- The two states differ in `dev` at most (R64). -/
def SameDriver (s t : State) : Prop := ∃ d, t = { s with dev := d }

theorem SameDriver.refl (s : State) : SameDriver s s := ⟨s.dev, rfl⟩

theorem SameDriver.symm {s t : State} (h : SameDriver s t) : SameDriver t s := by
  obtain ⟨d, rfl⟩ := h
  exact ⟨s.dev, rfl⟩

theorem SameDriver.trans {s t u : State} (h : SameDriver s t) (h' : SameDriver t u) : SameDriver s u := by
  obtain ⟨d, rfl⟩ := h
  obtain ⟨d', rfl⟩ := h'
  exact ⟨d', rfl⟩

theorem SameDriver.act {s t : State} (h : SameDriver s t) (a : Action) :
    SameDriver (Machine.act a s) (Machine.act a t) := by
  obtain ⟨d, rfl⟩ := h
  cases a with
  | ev e => cases e <;> exact ⟨_, rfl⟩
  | latch _ _ | setTrig _ | markUndef => exact ⟨_, rfl⟩

theorem SameDriver.runActions {s t : State} (h : SameDriver s t) (as : List Action) :
    SameDriver (Machine.runActions as s) (Machine.runActions as t) := by
  induction as generalizing s t with
  | nil => exact h
  | cons a as ih => exact ih (h.act a)

theorem SameDriver.finish {s t : State} (h : SameDriver s t) (n : Nat) :
    SameDriver (Machine.finish n s) (Machine.finish n t) := by
  obtain ⟨d, rfl⟩ := h
  exact ⟨d, rfl⟩

theorem SameDriver.perform {s t : State} (h : SameDriver s t) (n : Nat) (as : List Action) :
    SameDriver (Machine.perform n as s) (Machine.perform n as t) := by
  have hms : t.ms = s.ms := by obtain ⟨d, rfl⟩ := h; rfl
  unfold Machine.perform
  rw [hms]
  exact (h.runActions _).finish n

/-- The model's mark on the device is nothing the driver sees, at a request's start or in its middle. -/
theorem perform_markUndef_sameDriver (n : Nat) (as : List Action) (s : State) :
    SameDriver (perform n as s) (perform n (.markUndef :: as) s) := by
  cases hms : s.ms with
  | zero =>
    have marked : SameDriver s (act .markUndef s) := ⟨_, rfl⟩
    rw [perform_of_ms hms, perform_of_ms hms]
    exact (marked.runActions as).finish n
  | succ k =>
    simp only [perform, hms, resume]
    exact .refl _

/-- The driver sends the byte of `CUR` whatever the column (R156, R157). -/
theorem afterCur_sameDriver_sendByte (row col : Byte) (s : State) :
    SameDriver (perform 3 (sendByteActions 0 (cursorByte row col)) s) (afterCur row col s) := by
  unfold afterCur curActions
  split
  · exact .refl _
  · exact perform_markUndef_sameDriver 3 _ s

theorem SameDriver.afterCur {s t : State} (h : SameDriver s t) (row col : Byte) :
    SameDriver (Machine.afterCur row col s) (Machine.afterCur row col t) :=
  (afterCur_sameDriver_sendByte row col s).symm.trans
    ((h.perform 3 _).trans (afterCur_sameDriver_sendByte row col t))

theorem SameDriver.afterAlm {s t : State} (h : SameDriver s t) (v : Bit) :
    SameDriver (Machine.afterAlm v s) (Machine.afterAlm v t) := by
  have htrig : t.trig = s.trig := by obtain ⟨d, rfl⟩ := h; rfl
  unfold Machine.afterAlm
  rw [htrig]
  exact h.perform 2 _

/-- Two states with the same driver answer states with the same driver; for `MON`, if the columns per row are the
same too. -/
theorem exec_sameDriver {i : Instr} {s t : State} (h : SameDriver s t)
    (hw : t.dev.w = s.dev.w ∨ ∀ r, i ≠ .mon r) :
    ∃ s' t', exec i s = .next s' ∧ exec i t = .next t' ∧ SameDriver s' t' := by
  cases i with
  | init | cmd _ | chr _ | str _ | dly _ _ => exact ⟨_, _, rfl, rfl, h.perform _ _⟩
  | cur row col => exact ⟨_, _, rfl, rfl, h.afterCur row col⟩
  | alm v => exact ⟨_, _, rfl, rfl, h.afterAlm v⟩
  | mon r =>
    have hw : t.dev.w = s.dev.w := hw.resolve_right fun hr => hr r rfl
    refine ⟨_, _, rfl, rfl, ?_⟩
    rw [hw]
    exact ((((((((h.afterCur 1 1).perform _ _).afterCur 2 1).perform _ _).afterCur 2 1).perform _ _).afterAlm
      _).perform _ _)
  | dClear | d4bit | dAutoinc | dOnNocursor | d2line | dCursorRow1 _ | dCursorRow2 _ | dOther _ | dChar _ =>
    obtain ⟨d, rfl⟩ := h
    exact ⟨_, _, rfl, rfl, _, rfl⟩
  | pulse | sendbyte _ _ => exact ⟨_, _, rfl, rfl, h.runActions _⟩

end Sys2Proof.Machine

namespace Sys2Proof.Claims

open Sys2Proof.Machine

/-- Settles O56: no micro-operation looks at the device, and what else differs is the mark of `CUR`. -/
theorem driverIsBlindToDevice : Obligations.DriverIsBlindToDevice := by
  intro i s d hw
  obtain ⟨t, _, ht, ht', d', rfl⟩ := exec_sameDriver (t := { s with dev := d }) ⟨d, rfl⟩ hw
  exact ⟨t, d', ht, ht'⟩

end Sys2Proof.Claims
end

section
/-! PROOFS of the state family: micro-steps meet the step. -/

namespace Sys2Proof.Machine

/-! ## The latch is written after a request's last event -/

def Action.isEvent : Action → Bool
  | .ev _ => true
  | _ => false

def Action.writesTrig : Action → Bool
  | .setTrig _ => true
  | _ => false

/-- No event follows a write of `TRIG`, so what a request makes of the latch is the same at each of its events
(R222; log entry 11). -/
def LateTrig (as : List Action) : Prop := as.Pairwise fun a b => a.writesTrig = true → b.isEvent = false

theorem writesTrig_of_quiet {as : List Action} (h : quiet as = true) : ∀ a ∈ as, a.writesTrig = false := by
  induction as with
  | nil => nofun
  | cons a as ih =>
    rw [List.forall_mem_cons]
    cases a with
    | ev e =>
      cases e with
      | buz _ => cases h
      | rs _ | en _ | db _ | t _ | s _ => exact ⟨rfl, ih h⟩
    | setTrig _ => cases h
    | latch _ _ | markUndef => exact ⟨rfl, ih h⟩

theorem lateTrig_almActions (v trig : Bit) : LateTrig (almActions v trig) := by
  unfold almActions LateTrig
  split
  · decide
  · split <;> simp

theorem lateTrig_of_requestActions {i : Instr} {trig : Bit} {w : Width} {as : List Action}
    (h : requestActions i trig w = some as) : LateTrig as := by
  by_cases halm : ∃ v, i = .alm v
  · obtain ⟨v, rfl⟩ := halm
    cases h
    exact lateTrig_almActions v trig
  · have isQuiet := quiet_of_requestActions h fun v hv => halm ⟨v, hv⟩
    refine List.pairwise_of_forall_mem_list fun a ha b _ hw => ?_
    cases (writesTrig_of_quiet isQuiet a ha).symm.trans hw

theorem resume_sublist (k : Nat) (as : List Action) : (resume k as).Sublist as := by
  induction as generalizing k with
  | nil => cases k <;> exact List.Sublist.refl _
  | cons a as ih =>
    cases k with
    | zero => rw [resume_zero]
    | succ k => cases a <;> exact (ih _).cons _

theorem LateTrig.resume {as : List Action} (h : LateTrig as) (k : Nat) : LateTrig (Machine.resume k as) :=
  List.Pairwise.sublist (resume_sublist k as) h

/-- Before an event there is no write of the latch. -/
theorem LateTrig.before_event {before after : List Action} {e : Event} (h : LateTrig (before ++ .ev e :: after)) :
    ∀ a ∈ before, a.writesTrig = false := by
  intro a ha
  obtain ⟨-, -, hrel⟩ := List.pairwise_append.mp h
  exact Bool.eq_false_of_not_eq_true fun hw => nomatch hrel a ha (.ev e) List.mem_cons_self hw

theorem act_trig {a : Action} (h : a.writesTrig = false) (s : State) : (act a s).trig = s.trig := by
  cases a with
  | ev e => rw [act_ev, emit_trig]
  | setTrig _ => cases h
  | latch _ _ | markUndef => rfl

theorem runActions_trig {as : List Action} (h : ∀ a ∈ as, a.writesTrig = false) (s : State) :
    (runActions as s).trig = s.trig := by
  induction as generalizing s with
  | nil => rfl
  | cons a as ih =>
    rw [List.forall_mem_cons] at h
    rw [runActions_cons, ih h.2, act_trig h.1]

/-! ## One micro-step -/

/-- Micro-operations that have an event: those before the first, the event, and the rest. -/
theorem split_at_event {as : List Action} {e : Event} {es : List Event} (h : eventsOf as = e :: es) :
    ∃ before after, as = before ++ .ev e :: after ∧ eventsOf before = [] ∧ eventsOf after = es := by
  induction as with
  | nil => cases h
  | cons a as ih =>
    cases a with
    | ev f => cases h; exact ⟨[], as, rfl, rfl, rfl⟩
    | latch _ _ | setTrig _ | markUndef =>
      obtain ⟨before, after, rfl, hbefore, hafter⟩ := ih h
      exact ⟨_ :: before, after, rfl, hbefore, hafter⟩

/-- A micro-step goes up to and with the first event that is left, and counts it (R29). -/
theorem microRun_at_event {before : List Action} (h : eventsOf before = []) (n : Nat) (e : Event)
    (after : List Action) (s : State) :
    microRun n (before ++ .ev e :: after) s = { runActions (before ++ [.ev e]) s with ms := s.ms + 1 } := by
  induction before generalizing s with
  | nil => rfl
  | cons a as ih =>
    cases a with
    | ev f => cases h
    | latch _ _ | setTrig _ | markUndef => exact ih h _

theorem resume_one_at_event {before : List Action} (h : eventsOf before = []) (e : Event)
    (after : List Action) : resume 1 (before ++ .ev e :: after) = after := by
  induction before with
  | nil => exact resume_zero after
  | cons a as ih =>
    cases a with
    | ev f => cases h
    | latch _ _ | setTrig _ | markUndef => exact ih h

/-- The end of a request forgets how many of its events were counted. -/
theorem finish_withMs (n m : Nat) (s : State) : finish n { s with ms := m } = finish n s := rfl

/-- The machine stands in the request `i` at `rp`, whose micro-operations are `as`. -/
structure Underway (i : Instr) (as : List Action) (s : State) : Prop where
  port : s.port = none
  ready : s.seq = .ready
  decoded : ∃ rest, decodeRequest (s.req.drop s.rp) = .ok i rest
  actions : requestActions i s.trig s.dev.w = some as

variable {i : Instr} {as : List Action} {s : State}

theorem Underway.fetch (h : Underway i as s) : Machine.fetch s = .run i s := by
  obtain ⟨rest, hdecoded⟩ := h.decoded
  rw [fetch_of_ready h.port h.ready, fetchRequest_of_decoded hdecoded]

theorem underway_of_fetch (hport : s.port = none) (hready : s.seq = .ready) (hfetch : fetch s = .run i s)
    (hactions : requestActions i s.trig s.dev.w = some as) : Underway i as s := by
  rw [fetch_of_ready hport hready] at hfetch
  obtain ⟨-, -, hdecoded⟩ := fetchRequest_run hfetch
  exact ⟨hport, hready, hdecoded, hactions⟩

theorem Underway.step (h : Underway i as s) : Machine.step s = .next (perform (i.len s.dev.w) as s) := by
  simp only [Machine.step, h.fetch, exec_of_requestActions h.actions]

theorem Underway.microStep (h : Underway i as s) :
    Machine.microStep s = .next (microRun (i.len s.dev.w) (resume s.ms as) s) := by
  simp only [Machine.microStep, h.fetch, h.actions]

/-- With no event left, the micro-step is the step. -/
theorem Underway.microStep_of_no_event (h : Underway i as s) (hnone : eventsOf (resume s.ms as) = []) :
    Machine.microStep s = Machine.step s := by
  rw [h.microStep, h.step, microRun_of_no_event hnone, perform]

/-- With an event left, the micro-step performs it, and the machine stands in the same request with the same step
ahead (R29). -/
theorem Underway.microStep_of_event (h : Underway i as s) {e : Event} {es : List Event}
    (hev : eventsOf (resume s.ms as) = e :: es) :
    ∃ t, Machine.microStep s = .next t ∧ Underway i as t ∧ t.ms = s.ms + 1 ∧ t.tr = s.tr ++ [e] ∧ t.rp = s.rp
      ∧ eventsOf (resume t.ms as) = es ∧ Machine.step t = Machine.step s := by
  obtain ⟨before, after, hleft, hbefore, hafter⟩ := split_at_event hev
  have hlate := (lateTrig_of_requestActions h.actions).resume s.ms
  rw [hleft] at hlate
  have htrig : (runActions (before ++ [.ev e]) s).trig = s.trig := by
    rw [runActions_append, runActions_cons, runActions_nil, act_ev, emit_trig,
      runActions_trig hlate.before_event]
  have hrest : resume (s.ms + 1) as = after := by
    rw [← resume_resume, hleft, resume_one_at_event hbefore]
  have hunderway : Underway i as { runActions (before ++ [.ev e]) s with ms := s.ms + 1 } := by
    refine ⟨?_, ?_, ?_, ?_⟩
    · simpa using h.port
    · simpa using h.ready
    · simpa using h.decoded
    · simpa only [htrig, runActions_w] using h.actions
  refine ⟨_, ?_, hunderway, rfl, ?_, ?_, ?_, ?_⟩
  · rw [h.microStep, hleft, microRun_at_event hbefore]
  · simp [hbefore, eventsOf]
  · simp
  · rw [hrest, hafter]
  · rw [hunderway.step, h.step]
    simp only [perform, hrest, hleft, finish_withMs, runActions_withMs, runActions_append, runActions_cons,
      runActions_nil, runActions_w, act_w]

/-! ## Micro-steps in order -/

theorem microSteps_succ {s t : State} (h : microStep s = .next t) (n : Nat) :
    microSteps (n + 1) s = microSteps n t := by
  simp only [microSteps, h]

/-- As many micro-steps as events are left, and one more, are the step. -/
theorem Underway.microSteps_eq_step (h : Underway i as s) {es : List Event}
    (hev : eventsOf (resume s.ms as) = es) : microSteps (es.length + 1) s = Machine.step s := by
  induction es generalizing s with
  | nil =>
    have hmicro := (h.microStep_of_no_event hev).trans h.step
    rw [List.length_nil, microSteps_succ hmicro, h.step, microSteps]
  | cons e es ih =>
    obtain ⟨t, hmicro, hunderway, -, -, -, hleft, hstep⟩ := h.microStep_of_event hev
    rw [List.length_cons, microSteps_succ hmicro, ih hunderway hleft, hstep]

/-- On the way `ms` counts the events that stand in the trace, and `rp` has not moved. -/
theorem Underway.microSteps_on_the_way (h : Underway i as s) {k : Nat}
    (hk : k ≤ (eventsOf (resume s.ms as)).length) :
    ∃ t, microSteps k s = .next t ∧ t.ms = s.ms + k ∧ t.tr = s.tr ++ (eventsOf (resume s.ms as)).take k
      ∧ t.rp = s.rp := by
  induction k generalizing s with
  | zero => exact ⟨s, rfl, rfl, by simp, rfl⟩
  | succ k ih =>
    obtain ⟨e, es, hev⟩ := List.exists_cons_of_length_pos (Nat.lt_of_lt_of_le k.succ_pos hk)
    obtain ⟨t, hmicro, hunderway, hms, htr, hrp, hleft, -⟩ := h.microStep_of_event hev
    rw [hev] at hk
    obtain ⟨u, hu, hums, hutr, hurp⟩ := ih hunderway (by rw [hleft]; exact Nat.le_of_succ_le_succ hk)
    refine ⟨u, (microSteps_succ hmicro k).trans hu, by omega, ?_, hurp.trans hrp⟩
    rw [hutr, htr, hleft, hev, List.append_assoc, List.take_succ_cons, List.singleton_append]

end Sys2Proof.Machine

namespace Sys2Proof.Claims

open Sys2Proof.Machine

/-- Settles O58, by induction on the events that are left of the request. -/
theorem microStepsMeetTheStep : Obligations.MicroStepsMeetTheStep := by
  intro s i as hport hready hfetch hactions
  have h := underway_of_fetch hport hready hfetch hactions
  refine ⟨h.microSteps_eq_step rfl, fun hms k hk => ?_⟩
  have hall : resume s.ms as = as := by rw [hms, resume_zero]
  obtain ⟨t, ht, htms, htr, hrp⟩ := h.microSteps_on_the_way (k := k) (by rwa [hall])
  exact ⟨t, ht, by omega, by rwa [hall] at htr, hrp⟩

end Sys2Proof.Claims
end

section
/-! PROOFS of the memory family: the laws of the cell space, and the bytes at the device. -/

namespace Sys2Proof.Machine

/-! ## The addresses of the cells -/

/-- The bases of the rows lie 64 apart, so two rows of at most 64 columns share no address (R62; log entry 16). -/
theorem cellOf_eq_some_iff {w : Width} {a : Nat} {row : Row} {col : Nat} :
    cellOf w a = some (row, col) ↔ (1 ≤ col ∧ col ≤ w.val) ∧ cellAddr row col = a := by
  refine ⟨fun h => ?_, fun ⟨hcol, ha⟩ => ha ▸ cellOf_cellAddr hcol⟩
  unfold cellOf at h
  split_ifs at h with hrow1 hrow2
  · cases h
    exact ⟨by omega, by simp only [cellAddr, rowBase]; omega⟩
  · cases h
    exact ⟨by omega, by simp only [cellAddr, rowBase]; omega⟩

theorem cellOf_isSome_iff {w : Width} {a : Nat} :
    (cellOf w a).isSome = true ↔ (0x80 ≤ a ∧ a < 0x80 + w.val) ∨ (0xC0 ≤ a ∧ a < 0xC0 + w.val) := by
  have hbase1 : Config.BASE_ROW1.toNat = 0x80 := rfl
  have hbaseX : Config.BASE_ROWX.toNat = 0xC0 := rfl
  unfold cellOf
  rw [hbase1, hbaseX]
  split_ifs with hrow1 hrow2
  · exact iff_of_true rfl (.inl hrow1)
  · exact iff_of_true rfl (.inr hrow2)
  · exact iff_of_false nofun (not_or.mpr ⟨hrow1, hrow2⟩)

/-! ## The device rows and their bytes -/

/-- An offset of six bits never carries out of a byte that begins at a row's base (R62, R106). -/
theorem toNat_base_add_offset {base : Byte} (h : base.toNat ≤ 0xC0) (off : BitVec 6) :
    (base + off.zeroExtend 8).toNat = base.toNat + off.toNat := by
  have hoff := off.isLt
  rw [BitVec.toNat_add, BitVec.zeroExtend_eq_setWidth, BitVec.toNat_setWidth]
  omega

/-- The five fixed command bytes lie below the cursor bytes of both rows (R63). -/
theorem decodeCommandByte_of_high {w : Width} {b : Byte} (h : 0x80 ≤ b.toNat) :
    decodeCommandByte w b =
      if isRow1Cursor w b then .dCursorRow1 (BitVec.ofNat 6 (row1Offset b))
      else if isRow2Cursor w b then .dCursorRow2 (BitVec.ofNat 6 (row2Offset b))
      else .dOther b := by
  have hne : ∀ c : Byte, c.toNat < 0x80 → b ≠ c := by rintro c hc rfl; omega
  simp only [decodeCommandByte, if_neg (hne 0x01 (by decide)), if_neg (hne 0x02 (by decide)),
    if_neg (hne 0x06 (by decide)), if_neg (hne 0x0C (by decide)), if_neg (hne 0x28 (by decide))]

theorem decodeCommandByte_row1 {w : Width} {off : BitVec 6} (h : off.toNat < w.val) :
    decodeCommandByte w (Config.BASE_ROW1 + off.zeroExtend 8) = .dCursorRow1 off := by
  have hb := toNat_base_add_offset (base := Config.BASE_ROW1) (by decide) off
  have hrow1 : isRow1Cursor w (Config.BASE_ROW1 + off.zeroExtend 8) = true :=
    decide_eq_true (by rw [hb]; omega)
  rw [decodeCommandByte_of_high (hb ▸ Nat.le_add_right _ _), if_pos hrow1, row1Offset, hb,
    Nat.add_sub_cancel_left, BitVec.ofNat_toNat, BitVec.setWidth_eq]

theorem decodeCommandByte_row2 {w : Width} {off : BitVec 6} (h : off.toNat < w.val) :
    decodeCommandByte w (Config.BASE_ROWX + off.zeroExtend 8) = .dCursorRow2 off := by
  have hw := w.isLt
  have hb := toNat_base_add_offset (base := Config.BASE_ROWX) (by decide) off
  have hbase1 : Config.BASE_ROW1.toNat = 0x80 := rfl
  have hbaseX : Config.BASE_ROWX.toNat = 0xC0 := rfl
  have hrow1 : ¬ isRow1Cursor w (Config.BASE_ROWX + off.zeroExtend 8) = true :=
    fun hr => by have := of_decide_eq_true hr; omega
  have hrow2 : isRow2Cursor w (Config.BASE_ROWX + off.zeroExtend 8) = true :=
    decide_eq_true (by rw [hb]; omega)
  rw [decodeCommandByte_of_high (by omega), if_neg hrow1, if_pos hrow2, row2Offset, hb,
    Nat.add_sub_cancel_left, BitVec.ofNat_toNat, BitVec.setWidth_eq]

/-- What each test of the command decoder asks, all answered no (R63, R194). -/
theorem isListedCommand_eq_false_iff {w : Width} {b : Byte} : isListedCommand w b = false ↔
    b ≠ 0x01 ∧ b ≠ 0x02 ∧ b ≠ 0x06 ∧ b ≠ 0x0C ∧ b ≠ 0x28 ∧ ¬ isRow1Cursor w b = true
      ∧ ¬ isRow2Cursor w b = true := by
  simp only [isListedCommand, Bool.or_eq_false_iff, decide_eq_false_iff_not, Bool.not_eq_true, and_assoc, ne_eq]

/-- A byte outside the listed commands is no other row's (R63, R194). -/
theorem decodeCommandByte_of_unlisted {w : Width} {b : Byte} (h : isListedCommand w b = false) :
    decodeCommandByte w b = .dOther b := by
  obtain ⟨hclear, h4bit, hinc, hon, h2line, hrow1, hrow2⟩ := isListedCommand_eq_false_iff.mp h
  rw [decodeCommandByte, if_neg hclear, if_neg h4bit, if_neg hinc, if_neg hon, if_neg h2line, if_neg hrow1,
    if_neg hrow2]

/-- A well-formed device row is what its byte and mode line decode to (R106, R186, R195). -/
theorem decodeDevice_of_encodeDevice {w : Width} {i : Instr} {rs : Bit} {b : Byte}
    (hwf : i.wellFormed w = true) (h : encodeDevice i = some (rs, b)) : decodeDevice w rs b = i := by
  cases i with
  | init | cmd _ | chr _ | cur _ _ | str _ | alm _ | dly _ _ | mon _ | pulse | sendbyte _ _ => cases h
  | dClear | d4bit | dAutoinc | dOnNocursor | d2line | dChar _ => cases h; rfl
  | dCursorRow1 off => cases h; exact decodeCommandByte_row1 (of_decide_eq_true hwf)
  | dCursorRow2 off => cases h; exact decodeCommandByte_row2 (of_decide_eq_true hwf)
  | dOther b => cases h; exact decodeCommandByte_of_unlisted ((Bool.not_eq_true' _).mp hwf)

/-- Every command byte is the encoding of the well-formed row it decodes to (R106, R186). -/
theorem encodeDevice_decodeCommandByte (w : Width) (b : Byte) :
    encodeDevice (decodeCommandByte w b) = some (0, b) ∧ (decodeCommandByte w b).wellFormed w = true := by
  unfold decodeCommandByte
  split_ifs with hclear h4bit hinc hon h2line hrow1 hrow2
  · exact ⟨by rw [hclear]; rfl, rfl⟩
  · exact ⟨by rw [h4bit]; rfl, rfl⟩
  · exact ⟨by rw [hinc]; rfl, rfl⟩
  · exact ⟨by rw [hon]; rfl, rfl⟩
  · exact ⟨by rw [h2line]; rfl, rfl⟩
  · obtain ⟨hoff, hbyte⟩ := cursor_offset_and_byte (of_decide_eq_true hrow1)
    exact ⟨by simp only [encodeDevice, row1Offset, hbyte],
      decide_eq_true (by rw [row1Offset, hoff]; exact row1Offset_lt hrow1)⟩
  · obtain ⟨hoff, hbyte⟩ := cursor_offset_and_byte (of_decide_eq_true hrow2)
    exact ⟨by simp only [encodeDevice, row2Offset, hbyte],
      decide_eq_true (by rw [row2Offset, hoff]; exact row2Offset_lt hrow2)⟩
  · have unlisted : isListedCommand w b = false :=
      isListedCommand_eq_false_iff.mpr ⟨hclear, h4bit, hinc, hon, h2line, hrow1, hrow2⟩
    exact ⟨rfl, by rw [Instr.wellFormed, unlisted]; rfl⟩

end Sys2Proof.Machine

namespace Sys2Proof.Claims

open Sys2Proof.Machine

/-- Settles O59: the addresses from the two bases, their inverse by the ranges of both rows, and the laws of the
rising list. -/
theorem cellSpaceLaws : Obligations.CellSpaceLaws := by
  refine ⟨fun _ => ⟨rfl, rfl⟩, fun w row col => cellOf_cellAddr, fun w a row col => cellOf_eq_some_iff.mp,
    fun w a hrow1 hrow2 => ?_, fun a => ?_, fun a v m hm =>
      ⟨Memory.read_write_same a v m, fun _ hb => Memory.read_write_other hb v m, Memory.write_wf a v hm⟩⟩
  · rw [← Option.not_isSome_iff_eq_none, cellOf_isSome_iff]
    exact not_or.mpr ⟨hrow1, hrow2⟩
  · have hw : Config.W.val = 16 := rfl
    rw [cellOf_isSome_iff]
    omega

/-- Settles O4, row by row one way and byte by byte the other. -/
theorem deviceBytesDecodeAndEncode : Obligations.DeviceBytesDecodeAndEncode := by
  refine fun w => ⟨fun _ _ _ => decodeDevice_of_encodeDevice, fun rs b => ?_⟩
  obtain rfl | rfl : rs = 0 ∨ rs = 1 := BitVec.eq_zero_or_eq_one rs
  · exact encodeDevice_decodeCommandByte w b
  · exact ⟨rfl, rfl⟩

end Sys2Proof.Claims
end

section
/-! PROOFS of the memory family: every request sends its pulses in pairs. -/

namespace Sys2Proof.Machine

/-- `MON` is its eight requests one after the other (R111, R250). -/
theorem exec_mon_eq_execAll (r : BitVec 10) (s : State) :
    exec (.mon r) s = execAll (expansion s.dev.w r) s := rfl

theorem eq_mon_of_format {i : Instr} (h : i.format = .pseudo) : ∃ r, i = .mon r := by
  cases i <;> cases h
  case mon.refl r => exact ⟨r, rfl⟩

theorem format_of_mem_expansion {w : Width} {r : BitVec 10} {i : Instr} (h : i ∈ expansion w r) :
    i.format = .req := by
  simp only [expansion, List.mem_cons, List.not_mem_nil, or_false] at h
  obtain rfl | rfl | rfl | rfl | rfl | rfl | rfl | rfl := h <;> rfl

/-- What is reflexive and transitive and met by each instruction of a list is met by the list (R69). -/
theorem execAll_rel {R : State → State → Prop} (refl : ∀ s, R s s)
    (trans : ∀ {s t u}, R s t → R t u → R s u) {is : List Instr}
    (each : ∀ i ∈ is, ∀ s, ∃ t, exec i s = .next t ∧ R s t) (s : State) :
    ∃ t, execAll is s = .next t ∧ R s t := by
  induction is generalizing s with
  | nil => exact ⟨s, rfl, refl s⟩
  | cons i is ih =>
    rw [List.forall_mem_cons] at each
    obtain ⟨t, ht, hst⟩ := each.1 s
    obtain ⟨u, hu, htu⟩ := ih each.2 t
    exact ⟨u, by simp only [execAll, ht, hu], trans hst htu⟩

end Sys2Proof.Machine

namespace Sys2Proof.Claims

open Sys2Proof.Machine

theorem fallingPairs_append (rs : Bit) (db : Nibble) (en : Bit) (es fs : List Event) :
    fallingPairs rs db en (es ++ fs) =
      fallingPairs rs db en es ++ fallingPairs (rsAfter rs es) (dbAfter db es) (enAfter en es) fs := by
  induction es generalizing rs db en with
  | nil => rfl
  | cons e es ih =>
    cases e with
    | en v =>
      simp only [List.cons_append, fallingPairs, ih, rsAfter, dbAfter, enAfter]
      split <;> rfl
    | rs _ | db _ | buz _ | t _ | s _ => exact ih ..

/-- From `EN` low, these events have an even number of falling edges and leave `EN` low, whatever is on the other
lines (R66, R131). -/
structure PulsesPaired (es : List Event) : Prop where
  en : enAfter 0 es = 0
  even : ∀ rs db, (fallingPairs rs db 0 es).length % 2 = 0

theorem PulsesPaired.nil : PulsesPaired [] := ⟨rfl, fun _ _ => rfl⟩

theorem PulsesPaired.append {es fs : List Event} (h : PulsesPaired es) (h' : PulsesPaired fs) :
    PulsesPaired (es ++ fs) where
  en := by rw [enAfter_append, h.en, h'.en]
  even rs db := by
    rw [fallingPairs_append, h.en, List.length_append, Nat.add_mod, h.even, h'.even]

/-- A byte is two pulses, its high nibble at the first and its low nibble at the second (R132, R134). -/
theorem fallingPairs_sendByte (rs : Bit) (db : Nibble) (m : Bit) (b : Byte) :
    fallingPairs rs db 0 (eventsOf (sendByteActions m b)) = [(m, hiNibble b), (m, loNibble b)] := rfl

theorem pulsesPaired_sendByte (m : Bit) (b : Byte) : PulsesPaired (eventsOf (sendByteActions m b)) :=
  ⟨rfl, fun rs db => by rw [fallingPairs_sendByte]; exact Nat.mod_self 2⟩

theorem pulsesPaired_delayTu (k : Nat) : PulsesPaired (eventsOf [.ev (.t k)]) := ⟨rfl, fun _ _ => rfl⟩

theorem pulsesPaired_init : PulsesPaired (eventsOf initActions) := by
  have sent := pulsesPaired_sendByte 0
  simp only [initActions, eventsOf_append]
  exact ((((((pulsesPaired_delayTu _).append (sent _)).append (sent _)).append (sent _)).append (sent _)).append
    (sent _)).append (pulsesPaired_delayTu _)

theorem pulsesPaired_cur (w : Width) (row col : Byte) : PulsesPaired (eventsOf (curActions w row col)) := by
  unfold curActions
  split <;> exact pulsesPaired_sendByte 0 _

theorem pulsesPaired_str (text : List Byte) : PulsesPaired (eventsOf (strActions text)) := by
  induction text with
  | nil => exact .nil
  | cons b bs ih =>
    rw [strActions, List.flatMap_cons, eventsOf_append]
    exact (pulsesPaired_sendByte 1 b).append ih

theorem pulsesPaired_alm (v trig : Bit) : PulsesPaired (eventsOf (almActions v trig)) := by
  unfold almActions
  split_ifs
  all_goals exact ⟨rfl, fun _ _ => rfl⟩

theorem pulsesPaired_dly (u : DelayUnit) (k : Byte) : PulsesPaired (eventsOf (dlyActions u k)) := by
  cases u <;> exact ⟨rfl, fun _ _ => rfl⟩

theorem pulsesPaired_of_requestActions {i : Instr} {trig : Bit} {w : Width} {as : List Action}
    (h : requestActions i trig w = some as) : PulsesPaired (eventsOf as) := by
  cases i <;> cases h
  case init => exact pulsesPaired_init
  case cmd b => exact pulsesPaired_sendByte 0 b
  case chr b => exact pulsesPaired_sendByte 1 b
  case cur row col => exact pulsesPaired_cur w row col
  case str text => exact pulsesPaired_str text
  case alm v => exact pulsesPaired_alm v trig
  case dly u k => exact pulsesPaired_dly u k

/-- From between requests to between requests, with pulses in pairs on the way (R66, R308). -/
def PairedBetween (s t : State) : Prop :=
  s.ms = 0 → t.ms = 0 ∧ ∃ evs, Follows evs s t ∧ PulsesPaired evs

theorem PairedBetween.refl (s : State) : PairedBetween s s := fun hms => ⟨hms, [], .refl s, .nil⟩

theorem PairedBetween.trans {s t u : State} (h : PairedBetween s t) (h' : PairedBetween t u) :
    PairedBetween s u := by
  intro hms
  obtain ⟨htms, es, hes, hespaired⟩ := h hms
  obtain ⟨hums, fs, hfs, hfspaired⟩ := h' htms
  exact ⟨hums, es ++ fs, hes.trans hfs, hespaired.append hfspaired⟩

theorem exec_request_pairedBetween {i : Instr} (hi : i.format = .req) (s : State) :
    ∃ t, exec i s = .next t ∧ PairedBetween s t := by
  obtain ⟨as, has⟩ := requestActions_of_format hi s.trig s.dev.w
  refine ⟨_, exec_of_requestActions has, fun hms => ⟨perform_ms .., _, perform_follows .., ?_⟩⟩
  rw [hms, resume_zero]
  exact pulsesPaired_of_requestActions has

theorem exec_operation_pairedBetween {i : Instr} (hi : IsOperation i) (s : State) :
    ∃ t, exec i s = .next t ∧ PairedBetween s t := by
  obtain hreq | hpseudo := hi
  · exact exec_request_pairedBetween hreq s
  · obtain ⟨r, rfl⟩ := eq_mon_of_format hpseudo
    rw [exec_mon_eq_execAll]
    exact execAll_rel PairedBetween.refl PairedBetween.trans
      (fun i hi => exec_request_pairedBetween (format_of_mem_expansion hi)) s

/-- Settles O18: a byte is two pulses, no other event is an edge of `EN`, and `MON` is a list of requests. -/
theorem pulsesComeInPairs : Obligations.PulsesComeInPairs := by
  intro i s hi hms hen
  obtain ⟨t, ht, hbetween⟩ := exec_operation_pairedBetween hi s
  obtain ⟨-, evs, hfollows, hpaired⟩ := hbetween hms
  refine ⟨t, evs, ht, hfollows.tr, ?_, ?_⟩
  · rw [hfollows.en, hen, hpaired.en]
  · rw [hen]; exact hpaired.even s.rs s.db

end Sys2Proof.Claims
end

section
/-! PROOFS of the memory family: which cells a request leaves as they were. -/

namespace Sys2Proof.Machine

/-! ## What a request from its start makes of the device -/

theorem perform_dev_of_ms {s : State} (h : s.ms = 0) (n : Nat) (as : List Action) :
    (perform n as s).dev = (runActions as s).dev := by rw [perform_of_ms h, finish_dev]

theorem afterCmd_dev {s : State} (h : s.ms = 0) (b : Byte) : (afterCmd b s).dev = s.dev.byteSent 0 b := by
  rw [afterCmd, perform_dev_of_ms h, cmdActions, runActions_sendByte]

theorem afterChr_dev {s : State} (h : s.ms = 0) (b : Byte) : (afterChr b s).dev = s.dev.byteSent 1 b := by
  rw [afterChr, perform_dev_of_ms h, chrActions, runActions_sendByte]

theorem afterCur_dev {s : State} (h : s.ms = 0) (row col : Byte) : (afterCur row col s).dev =
    (if columnInRange s.dev.w col then s.dev else s.dev.markUndef).byteSent 0 (cursorByte row col) := by
  rw [afterCur, perform_dev_of_ms h, runActions_cur, runActions_sendByte]

theorem afterStr_dev {s : State} (h : s.ms = 0) (text : List Byte) :
    (afterStr text s).dev = text.foldl (fun d b => d.byteSent 1 b) s.dev := by
  rw [afterStr, perform_dev_of_ms h, runActions_str]

theorem afterAlm_cell {s : State} (h : s.ms = 0) (v : Bit) : (afterAlm v s).dev.cell = s.dev.cell := by
  rw [afterAlm, perform_dev_of_ms h, runActions_alm]
  split_ifs <;> rfl

theorem Dev.delayS_cell (k : Nat) (d : Dev) : (d.delayS k).cell = d.cell := by
  unfold Dev.delayS; split <;> rfl

theorem afterDly_cell {s : State} (h : s.ms = 0) (u : DelayUnit) (k : Byte) :
    (afterDly u k s).dev.cell = s.dev.cell := by
  rw [afterDly, perform_dev_of_ms h]
  cases u with
  | timeUnits => rfl
  | seconds => exact Dev.delayS_cell _ _

/-! ## A byte sent to a device between bytes -/

theorem Dev.defined_before_byteSent {rs : Bit} {b : Byte} {d : Dev} (h : (d.byteSent rs b).undef = false) :
    d.undef = false :=
  Bool.eq_false_of_not_eq_true fun hu => nomatch (Dev.byteSent_undef hu).symm.trans h

/-- The settle delay after a byte's two pulses makes nothing undefined and writes no cell (R132, R181). -/
theorem Dev.byteSent_undef_and_cell (rs : Bit) (b : Byte) (d : Dev) :
    (d.byteSent rs b).undef = ((d.pulsed rs (hiNibble b)).pulsed rs (loNibble b)).undef
      ∧ (d.byteSent rs b).cell = ((d.pulsed rs (hiNibble b)).pulsed rs (loNibble b)).cell := by
  simp only [Dev.byteSent, Dev.delayTu, and_self]

theorem Dev.settled_before_byteSent {rs : Bit} {b : Byte} {d : Dev} (he : d.en = 0)
    (h : (d.byteSent rs b).undef = false) : d.wait = 0 :=
  Nat.eq_zero_of_not_pos fun hw => nomatch (Dev.byteSent_of_wait he hw).symm.trans h

/-- A device between bytes in 4-bit mode is aligned, if a byte sent to it finds it settled (R182). -/
theorem Dev.Paired.aligned {d : Dev} (hp : d.Paired) (h4 : d.if4 = true) {rs : Bit} {b : Byte}
    (h : (d.byteSent rs b).undef = false) : d.Aligned :=
  ⟨h4, hp.ph h4, Dev.settled_before_byteSent hp.en h, hp.en⟩

/-- Before 4-bit mode a pair that leaves the device defined comes with the mode line low (R184). -/
theorem Dev.takePairBefore4bit_mode {rs : Bit} {n : Nibble} {d : Dev}
    (h : (d.takePairBefore4bit rs n).undef = false) : rs = 0 := by
  unfold Dev.takePairBefore4bit at h
  split_ifs at h with hzero htwo
  · exact hzero.1
  · exact htwo.1
  · cases h

/-- Before 4-bit mode no pulse writes a cell, and one that leaves the device defined comes with the mode line
low and asks for a wait if it begins 4-bit mode (R182, R184). -/
theorem Dev.pulsed_before4bit_rest (rs : Bit) (n : Nibble) {d : Dev} (he : d.en = 0) (h4 : d.if4 = false) :
    (d.pulsed rs n).cell = d.cell ∧ (d.pulsed rs n).en = 0
      ∧ ((d.pulsed rs n).undef = false → rs = 0)
      ∧ ((d.pulsed rs n).if4 = false ∨ 0 < (d.pulsed rs n).wait) := by
  have hpulse : d.pulsed rs n = Dev.takePairBefore4bit rs n
      { d with wait := d.wait - 1, hold := 0, en := 0, undef := d.undef || decide (0 < d.wait) } := by
    rw [Dev.pulsed_of_low he, Dev.takePair, if_neg (by simp [h4])]
  rw [hpulse]
  obtain ⟨hcell, hen, -, -⟩ := Dev.takePairBefore4bit_rest rs n
    { d with wait := d.wait - 1, hold := 0, en := 0, undef := d.undef || decide (0 < d.wait) }
  refine ⟨hcell, hen, Dev.takePairBefore4bit_mode, ?_⟩
  unfold Dev.takePairBefore4bit
  split_ifs
  · exact .inl h4
  · exact .inr (Nat.zero_lt_succ 1)
  · exact .inl h4

/-- Before 4-bit mode a byte writes no cell, and one that leaves the device defined is a command (R184). -/
theorem Dev.byteSent_before4bit {rs : Bit} {b : Byte} {d : Dev} (he : d.en = 0) (h4 : d.if4 = false)
    (h : (d.byteSent rs b).undef = false) : rs = 0 ∧ (d.byteSent rs b).cell = d.cell := by
  obtain ⟨hundef, hcells⟩ := Dev.byteSent_undef_and_cell rs b d
  rw [hundef] at h
  rw [hcells]
  obtain ⟨hcell, hen, hmode, hstill⟩ := Dev.pulsed_before4bit_rest rs (hiNibble b) he h4
  have hsettled := Dev.settled_before_pulsed hen h
  have h4' := hstill.resolve_right (Nat.not_lt_of_le (Nat.le_of_eq hsettled))
  obtain ⟨hcell', -, -, -⟩ := Dev.pulsed_before4bit_rest rs (loNibble b) hen h4'
  exact ⟨hmode (Dev.defined_before_pulsed h), hcell'.trans hcell⟩

/-- A command other than clear leaves the cells of a device between bytes (R184, R186). -/
theorem Dev.Paired.byteSent_command_cell {d : Dev} (hp : d.Paired) {b : Byte} (hb : b ≠ 0x01)
    (h : (d.byteSent 0 b).undef = false) : (d.byteSent 0 b).cell = d.cell := by
  cases h4 : d.if4 with
  | true =>
    rw [Dev.byteSent_of_aligned (hp.aligned h4 h)]
    exact Dev.receiveCommand_cell (d := { d with hn := hiNibble b, hrs := 0, hold := 0 }) hb
  | false =>
    obtain ⟨-, hcell⟩ := Dev.byteSent_before4bit hp.en h4 h
    exact hcell

/-- A character that leaves the device defined found the cursor on a column of the row (R195). -/
theorem Dev.receiveChar_of_defined {b : Byte} {d : Dev} (h : (d.receiveChar b).undef = false) :
    ∃ c, d.cur = some c ∧ d.receiveChar b = { d with
      wait := Config.SETTLE
      cell := Memory.write (cellAddr c.row c.col) b d.cell
      cur := if d.inc then some ⟨c.row, c.col + 1⟩ else none } := by
  by_cases hcolumn : ∃ c, d.cur = some c ∧ 1 ≤ c.col ∧ c.col ≤ d.w.val
  · obtain ⟨c, hc, hcol⟩ := hcolumn
    exact ⟨c, hc, Dev.putChar_of_column (d := d.settle) hc hcol b⟩
  · rw [Dev.receiveChar, Dev.putChar_of_no_column (d := d.settle) fun c hc hcol => hcolumn ⟨c, hc, hcol⟩] at h
    cases h

/-- A character sent to a device between bytes that stays defined goes to the cell under the cursor, and the
device is settled and between bytes as before (R185, R195). -/
theorem Dev.Paired.byteSent_char {d : Dev} (hp : d.Paired) {b : Byte} (h : (d.byteSent 1 b).undef = false) :
    ∃ c, d.cur = some c ∧ d.byteSent 1 b = { d with
      hn := hiNibble b
      hrs := 1
      hold := 0
      cell := Memory.write (cellAddr c.row c.col) b d.cell
      cur := if d.inc then some ⟨c.row, c.col + 1⟩ else none } := by
  cases h4 : d.if4 with
  | true =>
    have haligned := hp.aligned h4 h
    have hsent : d.byteSent 1 b =
        (Dev.receiveChar b { d with hn := hiNibble b, hrs := 1, hold := 0 }).delayTu Config.SETTLE :=
      Dev.byteSent_of_aligned haligned 1 b
    rw [hsent] at h ⊢
    obtain ⟨c, hc, hreceived⟩ := Dev.receiveChar_of_defined h
    refine ⟨c, hc, ?_⟩
    rw [hreceived]
    simp [Dev.delayTu, haligned.wait, h4]
  | false =>
    obtain ⟨hmode, -⟩ := Dev.byteSent_before4bit hp.en h4 h
    cases hmode

/-- A text sent to a device between bytes that stays defined leaves every address but as many from the cursor's
on as it has characters (R158, R195). -/
theorem Dev.Paired.textSent_read {text : List Byte} {a : Nat} {d : Dev} (hp : d.Paired)
    (h : (text.foldl (fun d b => d.byteSent 1 b) d).undef = false)
    (ha : ∀ c k, d.cur = some c → k < text.length → a ≠ cellAddr c.row (c.col + k)) :
    Memory.read a (text.foldl (fun d b => d.byteSent 1 b) d).cell = Memory.read a d.cell := by
  induction text generalizing d with
  | nil => rfl
  | cons b bs ih =>
    rw [List.foldl_cons] at h ⊢
    have hdefined : (d.byteSent 1 b).undef = false :=
      Bool.eq_false_of_not_eq_true fun hu => nomatch (Dev.textSent_undef hu).symm.trans h
    obtain ⟨c, hc, hsent⟩ := hp.byteSent_char hdefined
    have hpaired : (d.byteSent 1 b).Paired := by rw [hsent]; exact ⟨hp.ph, hp.en⟩
    have hread : Memory.read a (d.byteSent 1 b).cell = Memory.read a d.cell := by
      rw [hsent]; exact Memory.read_write_other (ha c 0 hc (Nat.zero_lt_succ _)) b d.cell
    refine (ih hpaired h fun c' k hc' hk => ?_).trans hread
    rw [hsent] at hc'
    simp only at hc'
    split_ifs at hc'
    cases hc'
    rw [Nat.add_assoc, Nat.add_comm 1 k]
    exact ha c (k + 1) hc (Nat.succ_lt_succ hk)

/-- With the column in the row the cursor byte lies in the row's range, above every fixed command byte (R63,
R107). -/
theorem cursorByte_ne_clear {w : Width} {col : Byte} (h : columnInRange w col = true) (row : Byte) :
    cursorByte row col ≠ 0x01 := by
  obtain ⟨hlow, hhigh⟩ := of_decide_eq_true h
  have hw := w.isLt
  have hbase : cursorBase row = 0x80 ∨ cursorBase row = 0xC0 := ite_eq_or_eq ..
  unfold cursorByte
  obtain hb | hb := hbase
  all_goals
    rw [hb]
    intro heq
    bv_omega

/-- `CUR` leaves the cells of a device between bytes that stays defined: a column outside the row marks it, and
the byte for any other column is no clear (R156, R157). -/
theorem afterCur_cell {s : State} (hms : s.ms = 0) (hp : s.dev.Paired) {row col : Byte}
    (h : (afterCur row col s).dev.undef = false) : (afterCur row col s).dev.cell = s.dev.cell := by
  rw [afterCur_dev hms] at h ⊢
  cases hcol : columnInRange s.dev.w col with
  | true =>
    rw [hcol, if_pos rfl] at h
    rw [if_pos rfl, hp.byteSent_command_cell (cursorByte_ne_clear hcol row) h]
  | false =>
    rw [hcol, if_neg Bool.false_ne_true] at h
    cases Dev.defined_before_byteSent h

end Sys2Proof.Machine

namespace Sys2Proof.Claims

open Sys2Proof.Machine

/-- Settles O37: what the bytes of each request do to the cells of a device between bytes. -/
theorem cellsKeepTheirValue : Obligations.CellsKeepTheirValue := by
  intro s hms hp
  refine ⟨fun b hb => ⟨_, rfl, fun hdef a => ?_⟩, fun row col => ⟨_, rfl, fun hdef a => ?_⟩,
    fun v => ⟨_, rfl, fun _ a => ?_⟩, fun u k => ⟨_, rfl, fun _ a => ?_⟩, fun b => ⟨_, rfl, fun hdef a ha => ?_⟩,
    fun text => ⟨_, rfl, fun hdef a ha => ?_⟩⟩
  · rw [afterCmd_dev hms] at hdef ⊢
    rw [hp.byteSent_command_cell hb hdef]
  · rw [afterCur_cell hms hp hdef]
  · rw [afterAlm_cell hms]
  · rw [afterDly_cell hms]
  · rw [afterChr_dev hms] at hdef ⊢
    obtain ⟨c, hc, hsent⟩ := hp.byteSent_char hdef
    rw [hsent, Memory.read_write_other]
    rintro rfl
    simp [hc] at ha
  · rw [afterStr_dev hms] at hdef ⊢
    exact hp.textSent_read hdef ha

end Sys2Proof.Claims
end

section
/-! PROOFS of the encoding family: the request decoder, and what a step makes of bytes that are no request. -/

namespace Sys2Proof

/-! ## Which bytes are no request -/

/-- A `STR` of at most 255 characters has its length in its one length byte (R96). -/
theorem toNat_lengthByte {text : List Byte} (h : text.length ≤ 255) :
    (BitVec.ofNat 8 text.length).toNat = text.length := by
  rw [BitVec.toNat_ofNat]; omega

/-- What each test of the request decoder asks, all answered no (R99, R102). -/
theorem isRequestOpcode_eq_false_iff {op : Byte} : Machine.isRequestOpcode op = false ↔
    op ≠ 0x10 ∧ op ≠ 0x11 ∧ op ≠ 0x12 ∧ op ≠ 0x13 ∧ op ≠ 0x14 ∧ op ≠ 0x20 ∧ op ≠ 0x30 := by
  simp only [Machine.isRequestOpcode, Bool.or_eq_false_iff, decide_eq_false_iff_not, and_assoc, ne_eq]

theorem decodeRequest_of_reserved_opcode {op : Byte} (h : Machine.isRequestOpcode op = false)
    (bs : List Byte) : decodeRequest (op :: bs) = .reservedOpcode op := by
  obtain ⟨hinit, hcmd, hchr, hcur, hstr, halm, hdly⟩ := isRequestOpcode_eq_false_iff.mp h
  rw [decodeRequest, if_neg hinit, if_neg hcmd, if_neg hchr, if_neg hcur, if_neg hstr, if_neg halm, if_neg hdly]

/-- An operand above 1 is neither of the two values of `ALM` and `DLY` (R100). -/
theorem ne_zero_and_ne_one {v : Byte} (h : 1 < v.toNat) : v ≠ 0 ∧ v ≠ 1 :=
  ⟨by rintro rfl; exact absurd h (by decide), by rintro rfl; exact absurd h (by decide)⟩

theorem decodeRequest_of_reserved_alarm {v : Byte} (h : 1 < v.toNat) (rest : List Byte) :
    decodeRequest (0x20 :: v :: rest) = .reservedAlarmOperand v := by
  obtain ⟨hzero, hone⟩ := ne_zero_and_ne_one h
  show decodeAlm (v :: rest) = _
  rw [decodeAlm, if_neg hzero, if_neg hone]

theorem decodeRequest_of_reserved_unit {u : Byte} (h : 1 < u.toNat) (k : Byte) (rest : List Byte) :
    decodeRequest (0x30 :: u :: k :: rest) = .reservedDelayUnit u := by
  obtain ⟨hzero, hone⟩ := ne_zero_and_ne_one h
  show decodeDly (u :: k :: rest) = _
  rw [decodeDly, if_neg hzero, if_neg hone]

theorem decodeOperand_of_short (mk : Byte → Instr) {bs : List Byte} (h : bs.length < 1) :
    decodeOperand mk bs = .truncated := by
  rw [List.length_eq_zero_iff.mp (Nat.lt_one_iff.mp h), decodeOperand]

theorem decodeAlm_of_short {bs : List Byte} (h : bs.length < 1) : decodeAlm bs = .truncated := by
  rw [List.length_eq_zero_iff.mp (Nat.lt_one_iff.mp h), decodeAlm]

theorem decodeCur_of_short {bs : List Byte} (h : bs.length < 2) : decodeCur bs = .truncated := by
  match bs, h with
  | [], _ | [_], _ => rfl

theorem decodeDly_of_short {bs : List Byte} (h : bs.length < 2) : decodeDly bs = .truncated := by
  match bs, h with
  | [], _ | [_], _ => rfl

/-- A text is truncated if it is shorter than its length byte says (R101). -/
theorem decodeStr_of_short {n : Byte} {text : List Byte} (h : text.length < n.toNat) :
    decodeStr (n :: text) = .truncated := by
  rw [decodeStr, if_neg (Nat.not_le.mpr h)]

/-- The operand bytes of a request cut short by the stream's end are fewer than its opcode asks for (R101). -/
theorem decodeRequest_of_cut {w : Width} {i : Instr} {bs missing : List Byte} (hreq : i.format = .req)
    (hwf : i.wellFormed w = true) (hbytes : bs ++ missing = encodeRequest i) (hbs : bs ≠ [])
    (hmissing : missing ≠ []) : decodeRequest bs = .truncated := by
  obtain ⟨op, bs, rfl⟩ := List.exists_cons_of_ne_nil hbs
  have hop : some op = (encodeRequest i).head? := congrArg List.head? hbytes
  have hshort : bs.length < i.len w - 1 := by
    have hlen := congrArg List.length hbytes
    have hpos := List.length_pos_iff.mpr hmissing
    rw [encodeRequest_length hreq w, List.length_append, List.length_cons] at hlen
    omega
  cases i with
  | init => cases hshort
  | cmd b => cases hop; exact decodeOperand_of_short .cmd hshort
  | chr b => cases hop; exact decodeOperand_of_short .chr hshort
  | cur row col => cases hop; exact decodeCur_of_short hshort
  | str text =>
    cases hop
    cases bs with
    | nil => rfl
    | cons n bs =>
      obtain ⟨-, htail⟩ := List.cons_eq_cons.mp hbytes
      obtain ⟨rfl, -⟩ := List.cons_eq_cons.mp htail
      refine decodeStr_of_short ?_
      rw [toNat_lengthByte (of_decide_eq_true hwf)]
      simp only [Instr.len, List.length_cons] at hshort
      omega
  | alm v => cases hop; exact decodeAlm_of_short hshort
  | dly u k => cases hop; exact decodeDly_of_short hshort
  | mon _ | dClear | d4bit | dAutoinc | dOnNocursor | d2line | dCursorRow1 _ | dCursorRow2 _ | dOther _
  | dChar _ | pulse | sendbyte _ _ => cases hreq

end Sys2Proof

namespace Sys2Proof.Machine

/-! ## What a step makes of bytes that are no request -/

/-- The reason for which an answer of the request decoder is refused, if it is no request (R99 to R101). -/
def refusalOf (rp : Nat) : Decoded → Option RefusedReason
  | .ok _ _ => none
  | .reservedOpcode op => some (.reservedOpcode op)
  | .reservedAlarmOperand v => some (.reservedAlarmOperand v)
  | .reservedDelayUnit u => some (.reservedDelayUnit u)
  | .truncated => some (.truncatedRequest rp)

/-- A ready machine refuses bytes at `rp` that are no request, and changes nothing else (R99 to R101). -/
theorem step_of_refusal {s : State} {reason : RefusedReason} (hport : s.port = none) (hready : s.seq = .ready)
    (hbytes : s.req.drop s.rp ≠ [])
    (h : refusalOf s.rp (decodeRequest (s.req.drop s.rp)) = some reason) :
    step s = .next { s with seq := .refused, refused := some reason } := by
  have hrp : s.rp ≠ s.req.length := fun hend => hbytes (by rw [hend, List.drop_length])
  simp only [step, fetch_of_ready hport hready, fetchRequest, if_neg hrp]
  cases hd : decodeRequest (s.req.drop s.rp) with
  | ok i rest => rw [hd] at h; cases h
  | reservedOpcode _ | reservedAlarmOperand _ | reservedDelayUnit _ | truncated => rw [hd] at h; cases h; rfl

end Sys2Proof.Machine

namespace Sys2Proof.Claims

open Sys2Proof.Machine

/-- Settles O1, request by request (`decodeRequest_encodeRequest`). -/
theorem requestDecodesWhatWasEncoded : Obligations.RequestDecodesWhatWasEncoded :=
  fun _ _ rest hreq hwf => decodeRequest_encodeRequest hreq hwf rest

/-- Settles O2, by the tests of the opcode byte (`decodeRequest_reads`). -/
theorem requestHasOneEncoding : Obligations.RequestHasOneEncoding :=
  fun w bs rest i h => decodeRequest_reads bs w i rest h

/-- Settles O3: the bytes are the encoding of what they decode to, and each encoding has its opcode's length. -/
theorem opcodeTellsLength : Obligations.OpcodeTellsLength := by
  refine ⟨fun op bs rest i h => ?_, fun op bs h =>
    decodeRequest_of_reserved_opcode (isRequestOpcode_eq_false_iff.mpr h) bs⟩
  obtain ⟨hreq, hwf, hbytes⟩ := decodeRequest_reads _ Config.W i rest h
  cases i with
  | init => cases hbytes; exact .inl ⟨rfl, rfl⟩
  | cmd b | chr b | alm v => cases hbytes; exact .inr (.inl ⟨by simp, rfl, Nat.le_add_left ..⟩)
  | cur row col | dly u k => cases hbytes; exact .inr (.inr (.inl ⟨by simp, rfl, Nat.le_add_left ..⟩))
  | str text =>
    have hlen := toNat_lengthByte (of_decide_eq_true hwf)
    cases hbytes
    refine .inr (.inr (.inr ⟨rfl, _, text ++ rest, rfl, ?_, ?_⟩))
    · rw [hlen, List.length_append]; exact Nat.le_add_right ..
    · rw [hlen, List.drop_left]
  | mon _ | dClear | d4bit | dAutoinc | dOnNocursor | d2line | dCursorRow1 _ | dCursorRow2 _ | dOther _
  | dChar _ | pulse | sendbyte _ _ => cases hreq

/-- Settles O10: what a request's encoding lacks at its end is missed by the decoder of its operands. -/
theorem truncatedRequestIsRefused : Obligations.TruncatedRequestIsRefused := by
  intro s i missing hport hready hreq hwf hbytes hmissing hrp
  have hleft : s.req.drop s.rp ≠ [] := fun hnil => absurd (List.drop_eq_nil_iff.mp hnil) (Nat.not_le.mpr hrp)
  exact step_of_refusal hport hready hleft (by rw [decodeRequest_of_cut hreq hwf hbytes hleft hmissing]; rfl)

/-- Settles O5: the words that carry an opcode are read as requests. That `0x01`, `0x84` and `0xCF`, single bytes
that are no opcode, are read as device rows is the model's reading (log entry 3). -/
theorem knownWordsDecode : Obligations.KnownWordsDecode := by
  unfold Obligations.KnownWordsDecode
  decide

/-- Settles O7: the byte at the port decodes to the device row it is the encoding of. -/
theorem stepRunsByteAtPort : Obligations.StepRunsByteAtPort := by
  intro s i rs b hwf hbyte hport
  simp only [step, fetch_of_port hport, decodeDevice_of_encodeDevice hwf hbyte]

/-- Settles O8: none of the seven opcodes lies in a reserved range, and a refused sequencer performs nothing. -/
theorem reservedOpcodeIsRefused : Obligations.ReservedOpcodeIsRefused := by
  intro s op rest hport hready hbytes hrange
  have hreserved : isRequestOpcode op = false := isRequestOpcode_eq_false_iff.mpr (by bv_omega)
  obtain ⟨-, -, hrefused⟩ := streamEndsAtItsLength
  refine ⟨step_of_refusal hport hready (by simp [hbytes]) ?_, hrefused _ hport rfl⟩
  rw [hbytes, decodeRequest_of_reserved_opcode hreserved]; rfl

/-- Settles O9: operands above 1 are neither of the two legal ones, and the other requests are read back with
every value of their operands. -/
theorem reservedOperandIsRefused : Obligations.ReservedOperandIsRefused := by
  refine ⟨fun s v rest hport hready hv hbytes => ?_, fun s u k rest hport hready hu hbytes => ?_,
    fun a b text rest => ?_⟩
  · refine step_of_refusal hport hready (by simp [hbytes]) ?_
    rw [hbytes, decodeRequest_of_reserved_alarm hv]; rfl
  · refine step_of_refusal hport hready (by simp [hbytes]) ?_
    rw [hbytes, decodeRequest_of_reserved_unit hu]; rfl
  · have reads : ∀ i : Instr, i.format = .req → i.wellFormed Config.W = true →
        decodeRequest (encodeRequest i ++ rest) = .ok i rest :=
      fun i hreq hwf => decodeRequest_encodeRequest hreq hwf rest
    exact ⟨reads (.cmd a) rfl rfl, reads (.chr a) rfl rfl, reads (.cur a b) rfl rfl,
      fun hlen => reads (.str text) rfl (decide_eq_true hlen), reads (.dly .timeUnits a) rfl rfl,
      reads (.dly .seconds a) rfl rfl⟩

/-- Settles O11: the decoder of `DLY` looks for its two bytes before it looks at the unit (log entry 5). -/
theorem truncatedDelayBeforeItsUnit : Obligations.TruncatedDelayBeforeItsUnit := by
  intro s u hport hready _ hbytes
  refine step_of_refusal hport hready (by simp [hbytes]) ?_
  rw [hbytes]; rfl

end Sys2Proof.Claims
end

section
/-! PROOFS of the encoding family: the driver's side of `CUR`, and the device's side of a byte on the bus. -/

namespace Sys2Proof.Machine

/-- The byte `CUR` sends, as a number (R107). -/
theorem cursorByte_toNat (row col : Byte) :
    (cursorByte row col).toNat = ((if row = 1 then 0x80 else 0xC0) + col.toNat - 1) % 256 := by
  unfold cursorByte cursorBase
  split
  · simp only [Config.BASE_ROW1]; bv_omega
  · simp only [Config.BASE_ROWX]; bv_omega

/-- From between requests a request of one byte leaves the registers of the byte transmission at that byte, and
nothing else of the driver changes (R132, R152 to R156). -/
theorem perform_sendByte {s : State} (h : s.ms = 0) (n : Nat) (m : Bit) (b : Byte) :
    perform n (sendByteActions m b) s = { s with
      rs := m, db := loNibble b, en := 0, curMode := m, curByte := b
      tr := s.tr ++ eventsOf (sendByteActions m b)
      rp := s.rp + n
      dev := s.dev.byteSent m b } := by
  rw [perform_of_ms h, runActions_sendByte, finish, h]

/-- A byte sent to an aligned device arrives whole, its nibbles latched before it and the settle delay after it
(R104, R185). -/
theorem Dev.byteSent_eq_arrive {d : Dev} (h : d.Aligned) (rs : Bit) (b : Byte) :
    d.byteSent rs b =
      (Dev.arrive rs b { d with hn := hiNibble b, hrs := rs, hold := 0 }).delayTu Config.SETTLE :=
  (Dev.byteSent_of_aligned h rs b).trans (congrArg (Dev.delayTu _) (if_pos h.if4).symm)

end Sys2Proof.Machine

namespace Sys2Proof.Claims

open Sys2Proof.Machine

/-- Settles O24: the driver's side is that of the byte sent, whether the column marks the device or not. -/
theorem curResult : Obligations.CurResult := by
  intro row col s hms
  obtain ⟨d, hd⟩ := afterCur_sameDriver_sendByte row col s
  refine ⟨d, cursorByte row col, cursorByte_toNat row col, ?_⟩
  show Host.Outcome.next (afterCur row col s) = _
  rw [hd, perform_sendByte hms]
  rfl

/-- Settles O43: an aligned device receives the byte sent whole, as a device in 4-bit mode does its row. -/
theorem busByteIsItsDeviceRow : Obligations.BusByteIsItsDeviceRow := by
  intro s rs b haligned
  have hsent : (runActions (sendByteActions rs b) s).dev = s.dev.byteSent rs b := by rw [runActions_sendByte]
  have harrived := hsent.trans (Dev.byteSent_eq_arrive haligned rs b)
  refine ⟨_, _, rfl, exec_decodeDevice rs b { s with dev := { s.dev with hn := hiNibble b, hrs := rs, hold := 0 } },
    ?_, fun _ => harrived⟩
  rw [harrived]
  rfl

end Sys2Proof.Claims
end

section
/-! PROOFS of the encoding family: `MON` in the stream is its eight requests. -/

namespace Sys2Proof.Machine

/-! ## The lengths of the monitor's texts -/

theorem length_padTo (n : Nat) (text : List Byte) : (padTo n text).length = max text.length n := by
  rw [padTo, spaces, List.length_append, List.length_replicate]
  omega

/-- The status text fills the row, or is longer than it (R245; log entry 16). -/
theorem length_statusT (w : Width) (t : Temperature) :
    (statusT w t).length = max (if overT t = 1 then 13 else 12) w.val := by
  rw [statusT, length_padTo]
  split <;> rfl

/-- The status text of the reference usage fills the row (R245). -/
theorem length_status_W (r : BitVec 10) : (status Config.W r).length = 16 := by
  rw [status, length_statusT]
  split <;> rfl

/-- Rounding adds at most one to the hundredths (R247). -/
theorem hundredths_le (t : Temperature) : hundredths t ≤ 100 * t.num / t.den + 1 := by
  simp only [hundredths]
  split_ifs <;> omega

theorem hundredths_temp_lt (r : BitVec 10) : hundredths (temp r) < 100000 := by
  have hle := hundredths_le (temp r)
  have hr := r.isLt
  simp only [temp, Config.SCALE_NUM, Config.SCALE_DEN] at hle ⊢
  omega

/-- The value text is the numeral of at most three digits and eleven characters beside it (R246, R247). -/
theorem length_value (r : BitVec 10) : 12 ≤ (value r).length ∧ (value r).length ≤ 14 := by
  have hdigits := decimal_length (n := hundredths (temp r) / 100) (by have := hundredths_temp_lt r; omega)
  simp only [value, valueT, fmt2, List.length_append, List.length_cons, List.length_nil]
  omega

/-- The eight requests of `MON` are requests of the spec: none of its texts is above 255 characters (R96, R111). -/
theorem wellFormed_of_mem_expansion {w : Width} {r : BitVec 10} {i : Instr} (h : i ∈ expansion w r) :
    i.wellFormed w = true := by
  have hw := w.isLt
  have hstatus : (status w r).length ≤ 255 := by
    rw [status, length_statusT]
    split <;> omega
  have hspaces : (spaces w.val).length ≤ 255 := by rw [spaces, List.length_replicate]; omega
  obtain ⟨-, hvalue⟩ := length_value r
  simp only [expansion, List.mem_cons, List.not_mem_nil, or_false] at h
  obtain rfl | rfl | rfl | rfl | rfl | rfl | rfl | rfl := h
  case inr.inl => exact decide_eq_true hstatus
  case inr.inr.inr.inl => exact decide_eq_true hspaces
  case inr.inr.inr.inr.inr.inl => exact decide_eq_true (by omega)
  all_goals rfl

/-! ## Requests in the stream, run by steps -/

/-- A step over a request performs it and stands, ready as before, at the bytes after it (R27, R28). -/
theorem step_of_request {s : State} {i : Instr} {rest : List Byte} (hport : s.port = none)
    (hready : s.seq = .ready) (hreq : i.format = .req) (hwf : i.wellFormed s.dev.w = true)
    (hbytes : s.req.drop s.rp = encodeRequest i ++ rest) :
    ∃ t, step s = .next t ∧ exec i s = .next t ∧ t.port = none ∧ t.seq = .ready ∧ t.dev.w = s.dev.w
      ∧ t.req.drop t.rp = rest := by
  obtain ⟨t, ht, answers⟩ := exec_answers i s
  obtain ⟨req, seq, -, port, w, rp⟩ := answers.advances
  refine ⟨t, (Claims.stepRunsRequestAtPointer s i rest hport hready hreq hwf hbytes).trans ht, ht,
    port.trans hport, seq.trans hready, w, ?_⟩
  rw [req, rp, ← encodeRequest_length hreq s.dev.w, ← List.drop_drop, hbytes, List.drop_left]

/-- As many steps over the encodings of requests, one after the other, perform them in turn. -/
theorem steps_of_requests {is : List Instr} {s : State} {rest : List Byte} (hport : s.port = none)
    (hready : s.seq = .ready) (hreq : ∀ i ∈ is, i.format = .req) (hwf : ∀ i ∈ is, i.wellFormed s.dev.w = true)
    (hbytes : s.req.drop s.rp = is.flatMap encodeRequest ++ rest) : steps is.length s = execAll is s := by
  induction is generalizing s with
  | nil => rfl
  | cons i is ih =>
    rw [List.forall_mem_cons] at hreq hwf
    rw [List.flatMap_cons, List.append_assoc] at hbytes
    obtain ⟨t, hstep, hexec, hport', hready', hw, hbytes'⟩ :=
      step_of_request hport hready hreq.1 hwf.1 hbytes
    simp only [List.length_cons, steps, execAll, hstep, hexec]
    exact ih hport' hready' hreq.2 (by rw [hw]; exact hwf.2) hbytes'

end Sys2Proof.Machine

namespace Sys2Proof.Claims

open Sys2Proof.Machine

/-- Settles O50: the expansion is a list of well-formed requests, so steps over its bytes perform it in turn. -/
theorem monitorIsItsExpansion : Obligations.MonitorIsItsExpansion := by
  refine ⟨fun w r => ⟨rfl, rfl⟩, fun r => ?_, fun r s => ⟨exec_mon_eq_execAll r s, ?_⟩, fun w n => rfl⟩
  · rw [Laws.EncodeLength.mon r Config.W (.inr rfl), Instr.len, length_status_W]
    rfl
  · intro rest hport hready _ hbytes
    rw [exec_mon_eq_execAll]
    exact steps_of_requests (is := expansion s.dev.w r) hport hready (fun _ => format_of_mem_expansion)
      (fun _ => wellFormed_of_mem_expansion) hbytes

end Sys2Proof.Claims
end

section
/-! PROOFS of the bus family: what `PULSE` and `SENDBYTE` do, and the byte read back from its event list. -/

namespace Sys2Proof.Machine

/-- Two nibbles side by side, as a number (R8, R104). -/
theorem joinNibbles_toNat (h l : Nibble) : (joinNibbles h l).toNat = 16 * h.toNat + l.toNat := by
  rw [joinNibbles, BitVec.toNat_append, ← Nat.shiftLeft_add_eq_or_of_lt l.isLt, Nat.shiftLeft_eq, Nat.mul_comm]

/-- The halves of a byte, high nibble first, are its digits to the base 16 (R134). -/
theorem halves_toNat (b : Byte) : 16 * (hiNibble b).toNat + (loNibble b).toNat = b.toNat := by
  rw [← joinNibbles_toNat, joinNibbles_halves]

/-- Everything `PULSE` does (R130). -/
theorem runActions_pulse (s : State) : runActions pulseActions s =
    { s with en := 0, tr := s.tr ++ eventsOf pulseActions, dev := s.dev.pulsed s.rs s.db } := by
  simp [pulseActions, act, emit, writeEn, delayTu, eventsOf, Dev.react, Dev.pulsed]

end Sys2Proof.Machine

namespace Sys2Proof.Claims

open Sys2Proof.Machine

/-- Settles O15: what a pulse does to the device is the same whether it is defined or not. -/
theorem pulseResult : Obligations.PulseResult :=
  fun s => ⟨s.dev.pulsed s.rs s.db, congrArg Host.Outcome.next (runActions_pulse s), fun _ => rfl⟩

/-- Settles O16: the device is the one the byte was sent to. -/
theorem sendByteResult : Obligations.SendByteResult :=
  fun m b s => ⟨s.dev.byteSent m b, congrArg Host.Outcome.next (runActions_sendByte m b s)⟩

/-- Settles O17: the two pairs are the mode with the halves of the byte. -/
theorem sendByteRoundTrip : Obligations.SendByteRoundTrip := by
  intro m b s t hen hexec
  obtain rfl : runActions (sendByteActions m b) s = t := Host.Outcome.next.inj hexec
  refine ⟨_, m, hiNibble b, m, loNibble b, runActions_tr _ s, ?_, rfl, rfl, halves_toNat b⟩
  rw [hen, fallingPairs_sendByte]

end Sys2Proof.Claims
end

section
/-! PROOFS of the display family: the driver's side of `CMD`, `CHR` and `STR`. -/

namespace Sys2Proof.Machine

/-- The bytes of a text one after the other, each with its own event list (R158). -/
theorem strActions_cons (b : Byte) (bs : List Byte) :
    strActions (b :: bs) = sendByteActions 1 b ++ strActions bs := rfl

theorem finish_zero {s : State} (h : s.ms = 0) : finish 0 s = s := by
  cases s
  cases h
  rfl

/-- Micro-operations look at neither the request pointer nor the count of events, so the end of a request may
come before them (R28, R29). -/
theorem runActions_finish (n : Nat) (as : List Action) (s : State) :
    runActions as (finish n s) = finish n (runActions as s) := by
  induction as generalizing s with
  | nil => rfl
  | cons a as ih =>
    have hact : act a (finish n s) = finish n (act a s) := by
      cases a with
      | ev e => cases e <;> rfl
      | latch _ _ | setTrig _ | markUndef => rfl
    rw [runActions_cons, runActions_cons, hact, ih]

/-- The characters of a text as requests of their own do what the text's micro-operations do, and move `rp` by
two bytes each (R154, R158, R159). -/
theorem execAll_chr (text : List Byte) {s : State} (h : s.ms = 0) :
    execAll (text.map .chr) s = .next (finish (2 * text.length) (runActions (strActions text) s)) := by
  induction text generalizing s with
  | nil => exact congrArg Host.Outcome.next (finish_zero h).symm
  | cons b bs ih =>
    have hfirst : afterChr b s = finish 2 (runActions (sendByteActions 1 b) s) := perform_of_ms h 2 _
    have hms : (afterChr b s).ms = 0 := perform_ms 2 _ s
    calc execAll ((b :: bs).map .chr) s
        = execAll (bs.map .chr) (afterChr b s) := rfl
      _ = .next (finish (2 * bs.length) (finish 2
            (runActions (strActions bs) (runActions (sendByteActions 1 b) s)))) := by
          rw [ih hms, hfirst, runActions_finish]
      _ = .next (finish (2 * (b :: bs).length) (runActions (strActions (b :: bs)) s)) := by
          rw [strActions_cons, runActions_append]
          simp only [finish, List.length_cons, Nat.mul_succ, Nat.add_assoc, Nat.add_comm 2]

end Sys2Proof.Machine

namespace Sys2Proof.Claims

open Sys2Proof.Machine

/-- The event list of a text's micro-operations is R132's of each character, in text order (R158). -/
theorem eventsOf_strActions (text : List Byte) :
    eventsOf (strActions text) = text.flatMap (byteTrace 1) := by
  induction text with
  | nil => rfl
  | cons b bs ih => rw [strActions_cons, eventsOf_append, ih, List.flatMap_cons]; rfl

/-- Settles O22: the request is the transmission of its byte with the mode line low. -/
theorem cmdResult : Obligations.CmdResult :=
  fun b s hms => ⟨s.dev.byteSent 0 b, congrArg Host.Outcome.next (perform_sendByte hms 2 0 b)⟩

/-- Settles O23: the request is the transmission of its character with the mode line high. -/
theorem chrResult : Obligations.ChrResult :=
  fun b s hms => ⟨s.dev.byteSent 1 b, congrArg Host.Outcome.next (perform_sendByte hms 2 1 b)⟩

/-- Settles O25: the text's micro-operations leave the registers of its last character (`runActions_str`). -/
theorem strResult : Obligations.StrResult := by
  intro text s hms
  refine ⟨text.foldl (fun d b => d.byteSent 1 b) s.dev, congrArg Host.Outcome.next ?_⟩
  rw [afterStr, perform_of_ms hms, runActions_str, eventsOf_strActions, finish, hms, ← Nat.add_assoc]
  rfl

/-- Settles O26: both are the text's micro-operations, with another length at the end of the request. -/
theorem stringEqualsItsCharacters : Obligations.StringEqualsItsCharacters := by
  intro text s hms
  refine ⟨_, _, rfl, execAll_chr text hms, ?_, ?_, ?_⟩
  · rw [afterStr, perform_of_ms hms]
    rfl
  · rw [afterStr, perform_rp, Nat.add_assoc]
  · rw [finish_rp, runActions_rp]

end Sys2Proof.Claims
end

section
/-! PROOFS of the display family: what an aligned device makes of a character, a cursor move and a text. -/

namespace Sys2Proof.Machine

/-! ## A byte received by an aligned device -/

/-- The device with a byte's high nibble and mode line latched and its pulses' hold served (R183, R185). -/
def Dev.latched (rs : Bit) (b : Byte) (d : Dev) : Dev := { d with hn := hiNibble b, hrs := rs, hold := 0 }

theorem Dev.byteSent_eq_receive {d : Dev} (h : d.Aligned) (rs : Bit) (b : Byte) :
    d.byteSent rs b = (Dev.receive rs b (d.latched rs b)).delayTu Config.SETTLE :=
  Dev.byteSent_of_aligned h rs b

/-- A character sent with the cursor on a column of the row is written there, and the device is settled again
(R195). -/
theorem Dev.byteSent_char_of_column {d : Dev} {c : Cursor} (h : d.Aligned) (hc : d.cur = some c)
    (hcol : 1 ≤ c.col ∧ c.col ≤ d.w.val) (b : Byte) : d.byteSent 1 b = { d.latched 1 b with
      wait := 0
      cell := Memory.write (cellAddr c.row c.col) b d.cell
      cur := if d.inc then some ⟨c.row, c.col + 1⟩ else none } := by
  have hreceived := Dev.putChar_of_column (d := (d.latched 1 b).settle) hc hcol b
  exact (Dev.byteSent_eq_receive h 1 b).trans (congrArg (Dev.delayTu Config.SETTLE) hreceived)

/-- A character sent with the cursor on no column of the row, or unknown, makes the device undefined (R195). -/
theorem Dev.byteSent_char_of_no_column {d : Dev} (h : d.Aligned)
    (hcol : ∀ c, d.cur = some c → ¬(1 ≤ c.col ∧ c.col ≤ d.w.val)) (b : Byte) :
    (d.byteSent 1 b).undef = true := by
  have hreceived : Dev.receive 1 b (d.latched 1 b) = (d.latched 1 b).settle.markUndef :=
    Dev.putChar_of_no_column (d := (d.latched 1 b).settle) hcol b
  rw [Dev.byteSent_eq_receive h, hreceived]
  rfl

/-! ## The cursor commands -/

/-- A byte from 0x80 on is none of the five fixed command bytes (R63). -/
theorem Dev.receiveCommand_of_high {b : Byte} (h : 0x80 ≤ b.toNat) (d : Dev) : d.receiveCommand b =
    if isRow1Cursor d.w b then d.settle.cursorRow1 (row1Offset b)
    else if isRow2Cursor d.w b then d.settle.cursorRow2 (row2Offset b)
    else d.settle.markUndef := by
  have hne : ∀ c : Byte, c.toNat < 0x80 → b ≠ c := by rintro c hc rfl; omega
  simp only [Dev.receiveCommand, if_neg (hne 0x01 (by decide)), if_neg (hne 0x02 (by decide)),
    if_neg (hne 0x06 (by decide)), if_neg (hne 0x0C (by decide)), if_neg (hne 0x28 (by decide))]

/-- A column from 1 to `W` keeps the cursor byte in the range that begins at its row's base (R107). -/
theorem cursorByte_toNat_of_column {w : Width} {col : Byte} (hcol : 1 ≤ col.toNat ∧ col.toNat ≤ w.val)
    (row : Byte) :
    (cursorByte row col).toNat = (if row = 1 then 0x80 else 0xC0) + (col.toNat - 1) := by
  have hw := w.isLt
  rw [cursorByte_toNat]
  split <;> omega

theorem Dev.receiveCommand_cursor_row1 {d : Dev} {col : Byte} (hcol : 1 ≤ col.toNat ∧ col.toNat ≤ d.w.val) :
    d.receiveCommand (cursorByte 1 col) = { d.settle with cur := some ⟨.row1, col.toNat⟩ } := by
  have hb := cursorByte_toNat_of_column hcol 1
  rw [if_pos rfl] at hb
  have hbase1 : Config.BASE_ROW1.toNat = 0x80 := rfl
  have hrow1 : isRow1Cursor d.w (cursorByte 1 col) = true := decide_eq_true (by omega)
  have hoff : row1Offset (cursorByte 1 col) + 1 = col.toNat := by unfold row1Offset; omega
  rw [Dev.receiveCommand_of_high (by omega), if_pos hrow1, Dev.cursorRow1, hoff]

theorem Dev.receiveCommand_cursor_row2 {d : Dev} {row col : Byte} (hrow : row ≠ 1)
    (hcol : 1 ≤ col.toNat ∧ col.toNat ≤ d.w.val) : d.receiveCommand (cursorByte row col) =
      if d.lines2 then { d.settle with cur := some ⟨.row2, col.toNat⟩ } else d.settle.markUndef := by
  have hw := d.w.isLt
  have hb := cursorByte_toNat_of_column hcol row
  rw [if_neg hrow] at hb
  have hbase1 : Config.BASE_ROW1.toNat = 0x80 := rfl
  have hbaseX : Config.BASE_ROWX.toNat = 0xC0 := rfl
  have hrow1 : ¬ isRow1Cursor d.w (cursorByte row col) = true := fun hr => by
    have := of_decide_eq_true hr; omega
  have hrow2 : isRow2Cursor d.w (cursorByte row col) = true := decide_eq_true (by omega)
  have hoff : row2Offset (cursorByte row col) + 1 = col.toNat := by unfold row2Offset; omega
  rw [Dev.receiveCommand_of_high (by omega), if_neg hrow1, if_pos hrow2, Dev.cursorRow2, hoff]
  rfl

/-- `CUR` with a column of the row sends its byte to the device as it stands (R156). -/
theorem afterCur_dev_of_column {s : State} (hms : s.ms = 0) {col : Byte}
    (hcol : 1 ≤ col.toNat ∧ col.toNat ≤ s.dev.w.val) (row : Byte) :
    (afterCur row col s).dev = s.dev.byteSent 0 (cursorByte row col) := by
  rw [afterCur_dev hms, if_pos (show columnInRange s.dev.w col = true from decide_eq_true hcol)]

/-- `CUR` with a column outside the row marks the device before its byte is sent (R157). -/
theorem afterCur_undef_of_no_column {s : State} (hms : s.ms = 0) {col : Byte}
    (hcol : col.toNat = 0 ∨ s.dev.w.val < col.toNat) (row : Byte) : (afterCur row col s).dev.undef = true := by
  have hout : ¬ columnInRange s.dev.w col = true := fun hin => by
    have := of_decide_eq_true hin; omega
  rw [afterCur_dev hms, if_neg hout]
  exact Dev.byteSent_undef rfl

/-! ## A text -/

/-- The addresses of a row's cells differ as their columns do (R62). -/
theorem cellAddr_ne {row : Row} {col col' : Nat} (h : 1 ≤ col) (h' : col < col') :
    cellAddr row col ≠ cellAddr row col' := by
  unfold cellAddr; omega

theorem Dev.Aligned.paired {d : Dev} (h : d.Aligned) : d.Paired := ⟨fun _ => h.ph, h.en⟩

/-- A text that fits between the cursor and column `W` is written from the cursor on, one character after the
other, and leaves the device settled with the cursor behind it (R158, R195). -/
theorem Dev.textSent_of_fits {text : List Byte} {d e : Dev} {c : Cursor}
    (hsends : text.foldl (fun d b => d.byteSent 1 b) d = e) (hdef : d.defined) (h : d.Aligned)
    (hinc : d.inc = true) (hc : d.cur = some c) (hcol : 1 ≤ c.col)
    (hfits : c.col + text.length ≤ d.w.val + 1) :
    e.undef = false ∧ e.wait = 0 ∧ e.cur = some ⟨c.row, c.col + text.length⟩
      ∧ ∀ k, k < text.length → e.cellAt c.row (c.col + k) = text[k]? := by
  induction text generalizing d c with
  | nil =>
    obtain rfl : d = e := hsends
    exact ⟨hdef, h.wait, hc, nofun⟩
  | cons b bs ih =>
    rw [List.foldl_cons] at hsends
    rw [List.length_cons] at hfits ⊢
    have hsent := Dev.byteSent_char_of_column h hc ⟨hcol, by omega⟩ b
    rw [if_pos hinc] at hsent
    have haligned : (d.byteSent 1 b).Aligned := by rw [hsent]; exact ⟨h.if4, h.ph, rfl, h.en⟩
    have hcur : (d.byteSent 1 b).cur = some ⟨c.row, c.col + 1⟩ := by rw [hsent]
    have hwritten : (d.byteSent 1 b).cellAt c.row c.col = some b := by
      rw [hsent]; exact Memory.read_write_same _ b d.cell
    obtain ⟨hundef, hwait, hbehind, hcells⟩ := ih hsends (by rw [hsent]; exact hdef) haligned
      (by rw [hsent]; exact hinc) hcur (Nat.le_add_left 1 c.col) (by rw [Dev.byteSent_w]; simp only; omega)
    refine ⟨hundef, hwait, ?_, fun k hk => ?_⟩
    · rw [hbehind, Nat.add_assoc, Nat.add_comm 1]
    · cases k with
      | zero =>
        subst hsends
        refine (haligned.paired.textSent_read hundef fun c' k hc' hk => ?_).trans hwritten
        cases hcur.symm.trans hc'
        exact cellAddr_ne hcol (by simp only; omega)
      | succ k =>
        rw [Nat.add_comm k 1, ← Nat.add_assoc, hcells k (Nat.lt_of_succ_lt_succ hk), Nat.add_comm 1 k,
          List.getElem?_cons_succ]

end Sys2Proof.Machine

namespace Sys2Proof.Claims

open Sys2Proof.Machine

/-- Settles O32: the cursor is on a column of the row, or it is not. -/
theorem chrAtDevice : Obligations.ChrAtDevice := by
  intro s b hms haligned hwf
  refine ⟨_, rfl, fun c hc hcol hdef => ?_, fun hcur => ?_⟩
  · obtain ⟨hcol1, -⟩ := hwf.cur c hc
    rw [afterChr_dev hms, Dev.byteSent_char_of_column haligned hc ⟨hcol1, hcol⟩]
    exact ⟨hdef, rfl, Memory.read_write_same .., fun a ha => Memory.read_write_other ha .., rfl⟩
  · rw [afterChr_dev hms]
    refine Dev.byteSent_char_of_no_column haligned (fun c hc hcol => ?_) b
    obtain hnone | ⟨c', hc', hpast⟩ := hcur
    · cases hnone.symm.trans hc
    · cases hc'.symm.trans hc
      omega

/-- Settles O33: the byte for a column of the row lies in the range of row 1 or in that of row 2. -/
theorem curAtDevice : Obligations.CurAtDevice := by
  intro s row col hms hdef haligned hcol
  refine ⟨_, rfl, ?_⟩
  rw [afterCur_dev_of_column hms hcol, Dev.byteSent_eq_receive haligned, Dev.receive, if_pos rfl]
  by_cases hrow : row = 1
  · subst hrow
    rw [Dev.receiveCommand_cursor_row1 (d := s.dev.latched 0 _) hcol]
    exact ⟨fun _ => ⟨rfl, hdef, rfl, rfl⟩, fun hne => absurd rfl hne⟩
  · rw [Dev.receiveCommand_cursor_row2 (d := s.dev.latched 0 _) hrow hcol]
    refine ⟨fun htwo => ?_, fun _ hone => ?_⟩
    · have hlines : (s.dev.latched 0 (cursorByte row col)).lines2 = true := htwo.resolve_left hrow
      rw [if_pos hlines, if_neg hrow]
      exact ⟨rfl, hdef, rfl, rfl⟩
    · have hlines : ¬ (s.dev.latched 0 (cursorByte row col)).lines2 = true := ne_true_of_eq_false hone
      rw [if_neg hlines]
      rfl

/-- Settles O34: the mark is set before the byte, and the byte is sent as for any other column. The accidents are
the columns at which the byte runs into row 2's range or over 255 (R310). -/
theorem curOutOfRangeIsUndefined : Obligations.CurOutOfRangeIsUndefined := by
  refine ⟨fun s row col hms hcol => ⟨_, rfl, afterCur_undef_of_no_column hms hcol row, ?_⟩, rfl, rfl, rfl⟩
  obtain ⟨d, hd⟩ := afterCur_sameDriver_sendByte row col s
  rw [hd, perform_sendByte hms]
  exact ⟨rfl, rfl, rfl, rfl, rfl⟩

/-- Settles O35, character by character (`Dev.textSent_of_fits`). The other addresses stay as for any text after
which the device is defined. -/
theorem strAtDevice : Obligations.StrAtDevice := by
  intro s text c hms hdef haligned hinc hc hcol hfits
  obtain ⟨hundef, hwait, hcur, hcells⟩ := Dev.textSent_of_fits rfl hdef haligned hinc hc hcol hfits
  refine ⟨_, rfl, ?_⟩
  rw [afterStr_dev hms]
  refine ⟨hundef, hwait, hcur, hcells, fun a ha => ?_⟩
  refine haligned.paired.textSent_read hundef fun c' k hc' hk => ?_
  cases hc.symm.trans hc'
  exact ha k hk

end Sys2Proof.Claims
end

section
/-! PROOFS of the display family: `INIT` and the clear, which writes every cell. -/

namespace Sys2Proof.Machine

/-! ## The cleared cell space -/

/-- A list of cells that all hold one byte reads as that byte at each of its addresses. -/
theorem Memory.read_map_const {a : Nat} {as : List Nat} (h : a ∈ as) (v : Byte) :
    Memory.read a (as.map fun x => (x, v)) = some v := by
  induction as with
  | nil => cases h
  | cons x xs ih =>
    rw [List.map_cons, Memory.read]
    split
    · rfl
    · exact ih (List.mem_of_ne_of_mem ‹_› h)

theorem cellAddr_mem_cellAddresses {w : Width} {col : Nat} (h : 1 ≤ col ∧ col ≤ w.val) (row : Row) :
    cellAddr row col ∈ cellAddresses w := by
  have hcol : col - 1 ∈ List.range w.val := List.mem_range.mpr (by omega)
  cases row with
  | row1 => exact List.mem_append_left _ (List.mem_map_of_mem hcol)
  | row2 => exact List.mem_append_right _ (List.mem_map_of_mem hcol)

/-- Every cell of a cleared display holds a space (R187). -/
theorem read_blankCells {w : Width} {col : Nat} (h : 1 ≤ col ∧ col ≤ w.val) (row : Row) :
    Memory.read (cellAddr row col) (blankCells w) = some 0x20 :=
  Memory.read_map_const (cellAddr_mem_cellAddresses h row) 0x20

/-- A command byte other than clear asks for the settle delay only and stays in 4-bit mode (R186, R188 to R194). -/
theorem Dev.receiveCommand_settles {b : Byte} {d : Dev} (hb : b ≠ 0x01) (h4 : d.if4 = true) :
    (d.receiveCommand b).if4 = true ∧ (d.receiveCommand b).wait = Config.SETTLE := by
  rw [Dev.receiveCommand, if_neg hb, Dev.cursorRow2]
  split
  · exact ⟨rfl, rfl⟩
  · repeat' split
    all_goals exact ⟨h4, rfl⟩

/-- A command byte other than clear leaves an aligned device aligned (R132, R185, R186). -/
theorem Dev.Aligned.byteSent_command {d : Dev} (h : d.Aligned) {b : Byte} (hb : b ≠ 0x01) :
    (d.byteSent 0 b).Aligned := by
  obtain ⟨hif4, hwait⟩ := Dev.receiveCommand_settles (d := d.latched 0 b) hb h.if4
  obtain ⟨hen, -, hph, -⟩ := Dev.receive_rest 0 b (d.latched 0 b)
  rw [Dev.byteSent_eq_receive h]
  exact ⟨hif4, hph.trans h.ph, Nat.sub_eq_zero_of_le (Nat.le_of_eq hwait), hen.trans h.en⟩

/-! ## The command bytes of `INIT` at an aligned device -/

theorem Dev.byteSent_force4bit {d : Dev} (h : d.Aligned) :
    d.byteSent 0 0x02 = { d.latched 0 0x02 with wait := 0, if4 := true, cur := none } :=
  Dev.byteSent_eq_receive h 0 0x02

theorem Dev.byteSent_twoLines {d : Dev} (h : d.Aligned) :
    d.byteSent 0 0x28 = { d.latched 0 0x28 with wait := 0, lines2 := true } :=
  Dev.byteSent_eq_receive h 0 0x28

theorem Dev.byteSent_displayOn {d : Dev} (h : d.Aligned) :
    d.byteSent 0 0x0C = { d.latched 0 0x0C with wait := 0, on := true } :=
  Dev.byteSent_eq_receive h 0 0x0C

theorem Dev.byteSent_autoInc {d : Dev} (h : d.Aligned) :
    d.byteSent 0 0x06 = { d.latched 0 0x06 with wait := 0, inc := true } :=
  Dev.byteSent_eq_receive h 0 0x06

/-- After a clear the device needs 2 time units more than the settle delay gives (R187). -/
theorem Dev.byteSent_clear {d : Dev} (h : d.Aligned) :
    d.byteSent 0 0x01 = { d.latched 0 0x01 with wait := 2, cell := blankCells d.w, cur := none } :=
  Dev.byteSent_eq_receive h 0 0x01

/-! ## The device `INIT` leaves -/

/-- The device after `INIT`, with `w` columns per row (R150). -/
def Dev.initialized (w : Width) : Dev :=
  { Dev.powerOn w with
    wait := 0, if4 := true, lines2 := true, on := true, inc := true, cell := blankCells w }

/-- What the last four bytes of `INIT` and the clear's own delay make of a device in 4-bit mode (R150). -/
theorem Dev.configured_eq_initialized {d : Dev} (hdef : d.defined) (h : d.Aligned) :
    ((((d.byteSent 0 0x28).byteSent 0 0x0C).byteSent 0 0x06).byteSent 0 0x01).delayTu Config.CLEAR_SETTLE =
      Dev.initialized d.w := by
  have htwo := h.byteSent_command (b := 0x28) (by decide)
  have hon := htwo.byteSent_command (b := 0x0C) (by decide)
  have hinc := hon.byteSent_command (b := 0x06) (by decide)
  rw [Dev.byteSent_clear hinc, Dev.byteSent_autoInc hon, Dev.byteSent_displayOn htwo, Dev.byteSent_twoLines h]
  simp only [Dev.initialized, Dev.powerOn, Dev.delayTu, Dev.latched, h.if4, h.ph, h.en,
    show d.undef = false from hdef]
  rfl

/-- The first byte of `INIT` puts the device at power-on into 4-bit mode, by its low nibble alone, and leaves a
device in 4-bit mode there (R150, R184, R188). -/
theorem Dev.aligned_in_init {d : Dev} (h : d = Dev.powerOn d.w ∨ (d.defined ∧ d.Aligned)) :
    ((d.delayTu Config.POWERON).byteSent 0 0x02).defined
      ∧ ((d.delayTu Config.POWERON).byteSent 0 0x02).Aligned := by
  obtain hpower | ⟨hdef, h4, hph, hwait, hen⟩ := h
  · rw [hpower]
    exact ⟨rfl, rfl, rfl, rfl, rfl⟩
  · have haligned : (d.delayTu Config.POWERON).Aligned := ⟨h4, hph, by rw [Dev.delayTu, hwait]; rfl, hen⟩
    rw [Dev.byteSent_force4bit haligned]
    exact ⟨hdef, rfl, hph, rfl, hen⟩

/-- What `INIT` makes of the device does not depend on what it held (R150, R151). -/
theorem afterInit_dev {s : State} (hms : s.ms = 0)
    (h : s.dev = Dev.powerOn s.dev.w ∨ (s.dev.defined ∧ s.dev.Aligned)) :
    (afterInit s).dev = Dev.initialized s.dev.w := by
  obtain ⟨hdef, haligned⟩ := Dev.aligned_in_init h
  rw [afterInit, perform_dev_of_ms hms, runActions_init, Dev.configured_eq_initialized hdef haligned,
    Dev.byteSent_w]
  rfl

theorem Dev.initialized_aligned (w : Width) : (Dev.initialized w).Aligned := ⟨rfl, rfl, rfl, rfl⟩

/-! ## A request too early -/

section Unsettled

variable {s : State} (hms : s.ms = 0) (hen : s.dev.en = 0) (hwait : 0 < s.dev.wait)
include hms hen hwait

theorem afterCmd_undef_of_wait (b : Byte) : (afterCmd b s).dev.undef = true := by
  rw [afterCmd_dev hms]; exact Dev.byteSent_of_wait hen hwait

theorem afterChr_undef_of_wait (b : Byte) : (afterChr b s).dev.undef = true := by
  rw [afterChr_dev hms]; exact Dev.byteSent_of_wait hen hwait

theorem afterCur_undef_of_wait (row col : Byte) : (afterCur row col s).dev.undef = true := by
  rw [afterCur_dev hms]
  split
  · exact Dev.byteSent_of_wait hen hwait
  · exact Dev.byteSent_undef rfl

/-- The first character of a text comes too early (R182). -/
theorem afterStr_undef_of_wait {text : List Byte} (h : text ≠ []) : (afterStr text s).dev.undef = true := by
  obtain ⟨b, bs, rfl⟩ := List.exists_cons_of_ne_nil h
  rw [afterStr_dev hms, List.foldl_cons]
  exact Dev.textSent_undef (Dev.byteSent_of_wait hen hwait)

end Unsettled

end Sys2Proof.Machine

namespace Sys2Proof.Claims

open Sys2Proof.Machine

/-- Everything `INIT` does from between requests: its event list and the registers of its last byte, and nothing
else of the driver (R150). -/
theorem afterInit_eq {s : State} (hms : s.ms = 0) : afterInit s = { s with
    rs := 0, db := 0x1, en := 0, curMode := 0, curByte := 0x01
    tr := s.tr ++ initTrace
    rp := s.rp + 1
    dev := (afterInit s).dev } := by
  rw [afterInit, perform_of_ms hms, runActions_init, finish, hms]
  rfl

/-- Settles O27: the device is `Dev.initialized` from either start. -/
theorem initResult : Obligations.InitResult := by
  refine ⟨fun s hms => ⟨_, congrArg Host.Outcome.next (afterInit_eq hms)⟩, rfl,
    fun s hms hstart => ⟨_, rfl, ?_⟩⟩
  rw [afterInit_dev hms hstart]
  exact ⟨rfl, rfl, rfl, rfl, rfl, fun row col hcol => read_blankCells hcol row, rfl, rfl, rfl⟩

/-- Settles O28: the device after `INIT` depends on the columns per row only, and meets the second start. -/
theorem initIsIdempotent : Obligations.InitIsIdempotent := by
  intro s hms hstart
  have hdev := afterInit_dev hms hstart
  have hms' : (afterInit s).ms = 0 := perform_ms 1 _ s
  have hdev' : (afterInit (afterInit s)).dev = (afterInit s).dev := by
    rw [afterInit_dev hms' (.inr (by rw [hdev]; exact ⟨rfl, Dev.initialized_aligned _⟩)), hdev]
    rfl
  refine ⟨_, _, rfl, rfl, hdev', ?_⟩
  rw [afterInit_eq hms', afterInit_eq hms]
  exact ⟨rfl, rfl, rfl, rfl, rfl, rfl, rfl, rfl, rfl, rfl⟩

/-- Settles O30: the clear leaves 2 time units to wait, which a byte at once breaks and a delay serves. -/
theorem bareClearNeedsItsDelay : Obligations.BareClearNeedsItsDelay := by
  intro s hms hdef haligned
  have hms' : (afterCmd 0x01 s).ms = 0 := perform_ms 2 _ s
  have hdev := (afterCmd_dev hms 0x01).trans (Dev.byteSent_clear haligned)
  have hen : (afterCmd 0x01 s).dev.en = 0 := by rw [hdev]; exact haligned.en
  have hwait : (afterCmd 0x01 s).dev.wait = 2 := by rw [hdev]
  have hundef : (afterCmd 0x01 s).dev.undef = false := by rw [hdev]; exact hdef
  have hpos : 0 < (afterCmd 0x01 s).dev.wait := by omega
  refine ⟨_, rfl, hwait, hundef, by rw [hdev], fun row col hcol => ?_,
    fun b => ⟨_, rfl, afterCmd_undef_of_wait hms' hen hpos b⟩,
    fun b => ⟨_, rfl, afterChr_undef_of_wait hms' hen hpos b⟩,
    fun row col => ⟨_, rfl, afterCur_undef_of_wait hms' hen hpos row col⟩,
    fun text htext => ⟨_, rfl, afterStr_undef_of_wait hms' hen hpos htext⟩, fun k hk => ⟨_, rfl, ?_⟩,
    fun k hk => ⟨_, rfl, ?_⟩⟩
  · rw [hdev]; exact read_blankCells hcol row
  · rw [afterDly, perform_dev_of_ms hms', runActions_dly_timeUnits, hdev]
    exact ⟨hdef, haligned.if4, haligned.ph, Nat.sub_eq_zero_of_le hk, haligned.en⟩
  · rw [afterDly, perform_dev_of_ms hms', runActions_dly_seconds, hdev, Dev.delayS, if_neg (by omega)]
    exact ⟨hdef, haligned.if4, haligned.ph, rfl, haligned.en⟩

end Sys2Proof.Claims
end

section
/-! PROOFS of the device family: the edges of `EN`, the pairs they latch, and the rows at a device in 4-bit mode. -/

namespace Sys2Proof.Machine

/-! ## The edges of `EN` -/

theorem Dev.rise_of_high {d : Dev} (h : d.en = 1) : d.rise = d := by
  rw [Dev.rise, if_neg (by simp [h])]

theorem Dev.fall_of_low {d : Dev} (h : d.en = 0) (rs : Bit) (n : Nibble) : d.fall rs n = d := by
  rw [Dev.fall, if_pos h]

theorem Dev.fall_of_high {d : Dev} (h : d.en = 1) (rs : Bit) (n : Nibble) :
    d.fall rs n = Dev.takePair rs n { d with undef := d.undef || decide (0 < d.hold), en := 0 } := by
  rw [Dev.fall, if_neg (by simp [h])]

theorem Dev.delayS_of_pos {k : Nat} (h : 1 ≤ k) (d : Dev) : d.delayS k = { d with wait := 0, hold := 0 } := by
  rw [Dev.delayS, if_neg (by omega)]

/-! ## A latched pair -/

theorem Dev.takePair_of_before4bit {d : Dev} (h4 : d.if4 = false) (rs : Bit) (n : Nibble) :
    d.takePair rs n = d.takePairBefore4bit rs n := by
  rw [Dev.takePair, if_neg (by simp [h4])]

theorem Dev.takePair_in4bit_hi {d : Dev} (h4 : d.if4 = true) (hph : d.ph = .hi) (rs : Bit) (n : Nibble) :
    d.takePair rs n = { d with hn := n, hrs := rs, ph := .lo } := by
  rw [Dev.takePair, if_pos h4, Dev.takePairIn4bit, hph]

theorem Dev.takePair_in4bit_lo {d : Dev} (h4 : d.if4 = true) (hph : d.ph = .lo) (rs : Bit) (n : Nibble) :
    d.takePair rs n =
      if rs = d.hrs then Dev.receive rs (joinNibbles d.hn n) { d with ph := .hi }
      else Dev.markUndef { d with ph := .hi } := by
  rw [Dev.takePair, if_pos h4, Dev.takePairIn4bit, hph]

/-! ## A row at a device in 4-bit mode -/

theorem Dev.cursorRow2_of_two_lines {d : Dev} (h : d.lines2 = true) (off : Nat) :
    d.cursorRow2 off = { d with cur := some ⟨.row2, off + 1⟩ } := if_pos h

theorem Dev.cursorRow2_of_one_line {d : Dev} (h : d.lines2 = false) (off : Nat) :
    d.cursorRow2 off = d.markUndef := if_neg (ne_true_of_eq_false h)

/-- In 4-bit mode a row's byte asks for the settle delay and has the row's own effect (R186, R195). -/
theorem atDevice_deliver_in4bit {s : State} (h4 : s.dev.if4 = true) (rs : Bit) (b : Byte) (f : Dev → Dev) :
    atDevice (Dev.deliver rs b f) s = { s with dev := f s.dev.settle } := by
  rw [atDevice, Dev.deliver, if_pos h4]

/-- A cursor unknown or past column `W` is on no column of the row (R38, R195). -/
theorem Dev.no_column_of_unknown_or_past {d : Dev}
    (h : d.cur = none ∨ ∃ c, d.cur = some c ∧ d.w.val < c.col) :
    ∀ c, d.cur = some c → ¬(1 ≤ c.col ∧ c.col ≤ d.w.val) := by
  rintro c hc ⟨-, hcol⟩
  obtain hnone | ⟨c', hc', hpast⟩ := h
  · cases hnone.symm.trans hc
  · cases hc'.symm.trans hc
    omega

end Sys2Proof.Machine

namespace Sys2Proof.Claims

open Sys2Proof.Machine

/-- Settles O20: an event is the delay or the edge it is for the device, whether it is defined or not. -/
theorem edgeRules : Obligations.EdgeRules := fun s _ =>
  ⟨fun _ => rfl, fun _ hk => Dev.delayS_of_pos hk s.dev, rfl, Dev.rise_of_low, Dev.rise_of_high,
    fun hlow => Dev.fall_of_low hlow s.rs s.db, fun hhigh => Dev.fall_of_high hhigh s.rs s.db,
    fun _ _ => ⟨rfl, rfl, rfl⟩⟩

/-- Settles O21: the byte of two nibbles is their number to the base 16. -/
theorem pairRules : Obligations.PairRules := by
  intro d _
  refine ⟨fun rs n h4 => Dev.takePair_of_before4bit h4 rs n,
    fun rs n h4 hph => Dev.takePair_in4bit_hi h4 hph rs n, fun rs n h4 hph hmode => ?_,
    fun rs n b h4 hph hmode hb => ?_⟩
  · rw [Dev.takePair_in4bit_lo h4 hph, if_neg hmode]
    rfl
  · have hjoin : joinNibbles d.hn n = b := BitVec.eq_of_toNat_eq ((joinNibbles_toNat d.hn n).trans hb.symm)
    rw [Dev.takePair_in4bit_lo h4 hph, if_pos hmode, hjoin]

/-- Settles O40: each row is its effect after the settle; clear writes every cell. -/
theorem deviceCommandRows : Obligations.DeviceCommandRows := by
  intro s _ h4
  have hrow (b : Byte) (f : Dev → Dev) : (.next (atDevice (Dev.deliver 0 b f) s) : Host.Outcome State Fault Refusal) =
      .next { s with dev := f s.dev.settle } :=
    congrArg Host.Outcome.next (atDevice_deliver_in4bit h4 0 b f)
  have hforce : s.dev.settle.force4bit = { s.dev with wait := 2, cur := none } := by
    rw [Dev.force4bit, ← h4]
    rfl
  refine ⟨⟨blankCells s.dev.w, hrow 0x01 Dev.clear, fun row col hcol => read_blankCells hcol row⟩,
    (hrow 0x02 Dev.force4bit).trans (by rw [hforce]), hrow 0x06 Dev.autoInc, hrow 0x0C Dev.displayOn,
    hrow 0x28 Dev.twoLines, fun off _ => hrow _ (Dev.cursorRow1 off.toNat), fun off _ htwo => ?_,
    fun off _ hone => ?_, fun b => hrow b Dev.markUndef⟩
  · exact (hrow _ (Dev.cursorRow2 off.toNat)).trans
      (by rw [Dev.cursorRow2_of_two_lines (d := s.dev.settle) htwo]; rfl)
  · exact (hrow _ (Dev.cursorRow2 off.toNat)).trans
      (by rw [Dev.cursorRow2_of_one_line (d := s.dev.settle) hone]; rfl)

/-- Settles O41: the cursor is on a column of the row, or it is not. -/
theorem deviceCharacterRow : Obligations.DeviceCharacterRow := by
  intro s b _ h4 hwf
  have hrow : exec (.dChar b) s = .next { s with dev := s.dev.settle.putChar b } :=
    congrArg Host.Outcome.next (atDevice_deliver_in4bit h4 1 b (Dev.putChar b))
  refine ⟨fun c hc hcol => ⟨Memory.write (cellAddr c.row c.col) b s.dev.cell, ?_,
    Memory.read_write_same .., fun a ha => Memory.read_write_other ha ..⟩, fun hcur => ?_⟩
  · obtain ⟨hcol1, -⟩ := hwf.cur c hc
    rw [hrow, Dev.putChar_of_column (d := s.dev.settle) hc ⟨hcol1, hcol⟩]
    rfl
  · rw [hrow, Dev.putChar_of_no_column (d := s.dev.settle) (Dev.no_column_of_unknown_or_past hcur)]
    rfl

end Sys2Proof.Claims
end

section
/-! PROOFS of the device family: the command bytes at an aligned device. -/

namespace Sys2Proof.Machine

/-! ## Cursor bytes and bytes outside the list -/

/-- A byte of row 1's range moves the cursor there (R192). -/
theorem Dev.receiveCommand_row1 {b : Byte} {d : Dev} (hb : 0x80 ≤ b.toNat ∧ b.toNat < 0x80 + d.w.val) :
    d.receiveCommand b = d.settle.cursorRow1 (b.toNat - 0x80) := by
  rw [Dev.receiveCommand_of_high hb.1, if_pos (show isRow1Cursor d.w b = true from decide_eq_true hb)]
  rfl

/-- A byte of row 2's range moves the cursor there, on a device configured for two lines (R193). -/
theorem Dev.receiveCommand_row2 {b : Byte} {d : Dev} (hb : 0xC0 ≤ b.toNat ∧ b.toNat < 0xC0 + d.w.val) :
    d.receiveCommand b = d.settle.cursorRow2 (b.toNat - 0xC0) := by
  have hw := d.w.isLt
  have hrow1 : ¬ isRow1Cursor d.w b = true := fun hr => by
    have : 0x80 ≤ b.toNat ∧ b.toNat < 0x80 + d.w.val := of_decide_eq_true hr
    omega
  rw [Dev.receiveCommand_of_high (by omega), if_neg hrow1,
    if_pos (show isRow2Cursor d.w b = true from decide_eq_true hb)]
  rfl

/-- A byte outside the listed commands makes the device undefined (R194). -/
theorem Dev.receiveCommand_of_unlisted {b : Byte} {d : Dev} (h : isListedCommand d.w b = false) :
    d.receiveCommand b = d.settle.markUndef := by
  obtain ⟨hclear, h4bit, hinc, hon, h2line, hrow1, hrow2⟩ := isListedCommand_eq_false_iff.mp h
  rw [Dev.receiveCommand, if_neg hclear, if_neg h4bit, if_neg hinc, if_neg hon, if_neg h2line, if_neg hrow1,
    if_neg hrow2]

/-! ## Command bytes sent to an aligned device -/

theorem Dev.byteSent_command {d : Dev} (h : d.Aligned) (b : Byte) :
    d.byteSent 0 b = ((d.latched 0 b).receiveCommand b).delayTu Config.SETTLE :=
  Dev.byteSent_eq_receive h 0 b

theorem Dev.byteSent_row1 {d : Dev} (h : d.Aligned) {b : Byte}
    (hb : 0x80 ≤ b.toNat ∧ b.toNat < 0x80 + d.w.val) :
    d.byteSent 0 b = { d.latched 0 b with wait := 0, cur := some ⟨.row1, b.toNat - 0x80 + 1⟩ } := by
  rw [Dev.byteSent_command h, Dev.receiveCommand_row1 (d := d.latched 0 b) hb]
  rfl

theorem Dev.byteSent_row2 {d : Dev} (h : d.Aligned) {b : Byte}
    (hb : 0xC0 ≤ b.toNat ∧ b.toNat < 0xC0 + d.w.val) (htwo : d.lines2 = true) :
    d.byteSent 0 b = { d.latched 0 b with wait := 0, cur := some ⟨.row2, b.toNat - 0xC0 + 1⟩ } := by
  rw [Dev.byteSent_command h, Dev.receiveCommand_row2 (d := d.latched 0 b) hb,
    Dev.cursorRow2_of_two_lines (d := (d.latched 0 b).settle) htwo]
  rfl

/-- A row 2 address on a device without two lines makes it undefined (R193). -/
theorem Dev.byteSent_row2_of_one_line {d : Dev} (h : d.Aligned) {b : Byte}
    (hb : 0xC0 ≤ b.toNat ∧ b.toNat < 0xC0 + d.w.val) (hone : d.lines2 = false) :
    (d.byteSent 0 b).undef = true := by
  rw [Dev.byteSent_command h, Dev.receiveCommand_row2 (d := d.latched 0 b) hb,
    Dev.cursorRow2_of_one_line (d := (d.latched 0 b).settle) hone]
  rfl

theorem Dev.byteSent_of_unlisted {d : Dev} (h : d.Aligned) {b : Byte} (hb : isListedCommand d.w b = false) :
    (d.byteSent 0 b).undef = true := by
  rw [Dev.byteSent_command h, Dev.receiveCommand_of_unlisted (d := d.latched 0 b) hb]
  rfl

end Sys2Proof.Machine

namespace Sys2Proof.Claims

open Sys2Proof.Machine

/-- Settles O29: the settle delay of the byte leaves the wait at 0, which it was. -/
theorem listedCommandsAtDevice : Obligations.ListedCommandsAtDevice := by
  intro s hms _ haligned
  refine ⟨⟨_, rfl, ?_⟩, ⟨_, rfl, ?_⟩, ⟨_, rfl, ?_⟩, ⟨_, rfl, ?_⟩, fun b hb => ⟨_, rfl, ?_⟩,
    fun b hb htwo => ⟨_, rfl, ?_⟩, fun b hb hone => ⟨_, rfl, ?_⟩⟩
  all_goals rw [afterCmd_dev hms]
  · simp only [Dev.byteSent_force4bit haligned, Dev.latched, haligned.if4, haligned.wait]
    rfl
  · simp only [Dev.byteSent_autoInc haligned, Dev.latched, haligned.wait]
    rfl
  · simp only [Dev.byteSent_displayOn haligned, Dev.latched, haligned.wait]
    rfl
  · simp only [Dev.byteSent_twoLines haligned, Dev.latched, haligned.wait]
    rfl
  · simp only [Dev.byteSent_row1 haligned hb, Dev.latched, haligned.wait]
    rfl
  · simp only [Dev.byteSent_row2 haligned hb htwo, Dev.latched, haligned.wait]
    rfl
  · exact Dev.byteSent_row2_of_one_line haligned hb hone

/-- Settles O31: the byte fails every test of the command list, so its receipt is the mark. -/
theorem unlistedCommandIsUndefined : Obligations.UnlistedCommandIsUndefined := by
  intro s b hms haligned hclear h4bit hinc hon h2line hrow1 hrow2
  have hunlisted : isListedCommand s.dev.w b = false :=
    isListedCommand_eq_false_iff.mpr ⟨hclear, h4bit, hinc, hon, h2line,
      fun hr => hrow1 (of_decide_eq_true hr), fun hr => hrow2 (of_decide_eq_true hr)⟩
  exact ⟨_, rfl, by rw [afterCmd_dev hms]; exact Dev.byteSent_of_unlisted haligned hunlisted⟩

end Sys2Proof.Claims
end

section
/-! PROOFS of the device family: a device that has not settled, and one that is not yet in 4-bit mode. -/

namespace Sys2Proof.Machine

/-! ## The requests that send no byte -/

theorem afterAlm_undef {s : State} (h : s.ms = 0) (v : Bit) : (afterAlm v s).dev.undef = s.dev.undef := by
  rw [afterAlm, perform_dev_of_ms h, runActions_alm]
  split_ifs <;> rfl

theorem Dev.delayS_undef (k : Nat) (d : Dev) : (d.delayS k).undef = d.undef := by
  unfold Dev.delayS; split <;> rfl

theorem afterDly_undef {s : State} (h : s.ms = 0) (u : DelayUnit) (k : Byte) :
    (afterDly u k s).dev.undef = s.dev.undef := by
  rw [afterDly, perform_dev_of_ms h]
  cases u with
  | timeUnits => rfl
  | seconds => exact Dev.delayS_undef _ _

/-! ## A byte before 4-bit mode -/

/-- The two pulses of a byte, high nibble first, without the settle delay (R104, R188). -/
def Dev.twoPulses (rs : Bit) (b : Byte) (d : Dev) : Dev := (d.pulsed rs (hiNibble b)).pulsed rs (loNibble b)

theorem Dev.byteSent_eq_twoPulses (rs : Bit) (b : Byte) (d : Dev) :
    d.byteSent rs b = (d.twoPulses rs b).delayTu Config.SETTLE := rfl

/-- A row at a device before 4-bit mode is seen as its two pulses (R188; log entry 2). -/
theorem atDevice_deliver_before4bit {s : State} (h4 : s.dev.if4 = false) (rs : Bit) (b : Byte) (f : Dev → Dev) :
    atDevice (Dev.deliver rs b f) s = { s with dev := s.dev.twoPulses rs b } := by
  rw [atDevice, Dev.deliver, if_neg (ne_true_of_eq_false h4), Dev.twoPulses]

theorem Dev.arrive_before4bit {d : Dev} (h4 : d.if4 = false) (rs : Bit) (b : Byte) :
    d.arrive rs b = d.twoPulses rs b := if_neg (ne_true_of_eq_false h4)

/-- With a high nibble 0 the low nibble alone tells the byte (R8). -/
theorem eq_of_hiNibble_eq_zero {b : Byte} (h : hiNibble b = 0) {n : Nibble} (hn : loNibble b = n) :
    b = joinNibbles 0 n := by
  rw [← joinNibbles_halves b, h, hn]

/-! ## Two pulses at a settled device before 4-bit mode -/

theorem Dev.takePairBefore4bit_zero (d : Dev) : d.takePairBefore4bit 0 0 = d := rfl

theorem Dev.takePairBefore4bit_two (d : Dev) :
    d.takePairBefore4bit 0 2 = { d with if4 := true, ph := .hi, wait := Config.SETTLE } := rfl

theorem Dev.takePairBefore4bit_other {rs : Bit} {n : Nibble} (hzero : ¬(rs = 0 ∧ n = 0))
    (htwo : ¬(rs = 0 ∧ n = 2)) (d : Dev) : d.takePairBefore4bit rs n = d.markUndef := by
  rw [Dev.takePairBefore4bit, if_neg hzero, if_neg htwo]

section Before4bit

variable {d : Dev} (h4 : d.if4 = false) (hen : d.en = 0) (hwait : d.wait = 0)
include h4 hen hwait

/-- A pulse at a settled device is in time, so only its pair counts (R182, R184). -/
theorem Dev.pulsed_eq_takePairBefore4bit (rs : Bit) (n : Nibble) :
    d.pulsed rs n = Dev.takePairBefore4bit rs n { d with hold := 0 } := by
  rw [Dev.pulsed_of_low hen, ← Dev.takePair_of_before4bit (d := { d with hold := 0 }) h4, hwait, ← hen]
  simp

theorem Dev.pulsed_zero_before4bit : d.pulsed 0 0 = { d with hold := 0 } := by
  rw [Dev.pulsed_eq_takePairBefore4bit h4 hen hwait, Dev.takePairBefore4bit_zero]

theorem Dev.pulsed_two_before4bit :
    d.pulsed 0 2 = { d with if4 := true, ph := .hi, wait := 2, hold := 0 } := by
  rw [Dev.pulsed_eq_takePairBefore4bit h4 hen hwait, Dev.takePairBefore4bit_two]
  rfl

theorem Dev.pulsed_undef_before4bit {rs : Bit} {n : Nibble} (hzero : ¬(rs = 0 ∧ n = 0))
    (htwo : ¬(rs = 0 ∧ n = 2)) : (d.pulsed rs n).undef = true := by
  rw [Dev.pulsed_eq_takePairBefore4bit h4 hen hwait, Dev.takePairBefore4bit_other hzero htwo]
  rfl

/-- A byte 0x00 is two pairs that do nothing (R184). -/
theorem Dev.twoPulses_zero : d.twoPulses 0 0x00 = { d with hold := 0 } := by
  have hfirst : d.pulsed 0 (hiNibble 0x00) = { d with hold := 0 } := Dev.pulsed_zero_before4bit h4 hen hwait
  rw [Dev.twoPulses, hfirst]
  exact Dev.pulsed_zero_before4bit (d := { d with hold := 0 }) h4 hen hwait

/-- The low nibble of 0x02 puts the device into 4-bit mode, after a high nibble that does nothing (R184, R188). -/
theorem Dev.twoPulses_two : d.twoPulses 0 0x02 = { d with if4 := true, ph := .hi, wait := 2, hold := 0 } := by
  have hfirst : d.pulsed 0 (hiNibble 0x02) = { d with hold := 0 } := Dev.pulsed_zero_before4bit h4 hen hwait
  rw [Dev.twoPulses, hfirst]
  exact Dev.pulsed_two_before4bit (d := { d with hold := 0 }) h4 hen hwait

/-- Any other byte leaves the device undefined: a high nibble 0 comes before a low nibble that is neither 0 nor 2,
a high nibble 2 enters 4-bit mode and the low nibble comes before the settle, and every other high nibble is
undefined itself, as is every character's (R182, R184). -/
theorem Dev.twoPulses_undef {rs : Bit} {b : Byte} (hb : ¬(rs = 0 ∧ (b = 0x00 ∨ b = 0x02))) :
    (d.twoPulses rs b).undef = true := by
  by_cases hzero : rs = 0 ∧ hiNibble b = 0
  · obtain ⟨rfl, hhi⟩ := hzero
    rw [Dev.twoPulses, hhi, Dev.pulsed_zero_before4bit h4 hen hwait]
    exact Dev.pulsed_undef_before4bit (d := { d with hold := 0 }) h4 hen hwait
      (fun hlo => hb ⟨rfl, .inl (eq_of_hiNibble_eq_zero hhi hlo.2)⟩)
      (fun hlo => hb ⟨rfl, .inr (eq_of_hiNibble_eq_zero hhi hlo.2)⟩)
  · by_cases htwo : rs = 0 ∧ hiNibble b = 2
    · obtain ⟨rfl, hhi⟩ := htwo
      rw [Dev.twoPulses, hhi, Dev.pulsed_two_before4bit h4 hen hwait]
      exact Dev.pulsed_of_wait hen (Nat.zero_lt_succ 1)
    · exact Dev.pulsed_undef (Dev.pulsed_undef_before4bit h4 hen hwait hzero htwo)

end Before4bit

end Sys2Proof.Machine

namespace Sys2Proof.Claims

open Sys2Proof.Machine

/-- Settles O38: the first pulse of a byte comes too early; the alarm and a delay send no pulse. -/
theorem unsettledDeviceIsUndefined : Obligations.UnsettledDeviceIsUndefined := fun _ hms hen hwait =>
  ⟨fun b => ⟨_, rfl, afterCmd_undef_of_wait hms hen hwait b⟩,
    fun b => ⟨_, rfl, afterChr_undef_of_wait hms hen hwait b⟩,
    fun row col => ⟨_, rfl, afterCur_undef_of_wait hms hen hwait row col⟩,
    fun _ htext => ⟨_, rfl, afterStr_undef_of_wait hms hen hwait htext⟩,
    fun v => ⟨_, rfl, afterAlm_undef hms v⟩, fun u k => ⟨_, rfl, afterDly_undef hms u k⟩⟩

/-- Settles O39: a byte is its two pulses, and the settle delay after them serves the wait that 4-bit mode begins
with. -/
theorem bytesBefore4bitMode : Obligations.BytesBefore4bitMode := by
  intro s hms h4 hen hwait
  refine ⟨fun _ => ⟨_, rfl, ?_⟩, fun _ => ⟨_, rfl, ?_⟩, fun b hzero htwo => ⟨_, rfl, ?_⟩,
    fun b => ⟨_, rfl, ?_⟩⟩
  · rw [afterCmd_dev hms, Dev.byteSent_eq_twoPulses, Dev.twoPulses_two h4 hen hwait]
    simp [Dev.delayTu, Config.SETTLE, hwait]
  · rw [afterCmd_dev hms, Dev.byteSent_eq_twoPulses, Dev.twoPulses_zero h4 hen hwait]
    simp [Dev.delayTu, hwait]
  · rw [afterCmd_dev hms]
    exact Dev.twoPulses_undef h4 hen hwait fun hb => hb.2.elim hzero htwo
  · rw [afterChr_dev hms]
    exact Dev.twoPulses_undef h4 hen hwait fun hb => nomatch hb.1

/-- Settles O42: a row is its byte's two pulses, whichever row it is. -/
theorem deviceRowsBefore4bitMode : Obligations.DeviceRowsBefore4bitMode := by
  intro s h4 hen hwait
  refine ⟨fun _ => ?_, fun _ => ?_, fun i rs b hwf henc hb => ?_⟩
  · rw [← Dev.twoPulses_two h4 hen hwait]
    exact congrArg Host.Outcome.next (atDevice_deliver_before4bit h4 0 0x02 Dev.force4bit)
  · rw [← Dev.twoPulses_zero h4 hen hwait]
    exact congrArg Host.Outcome.next (atDevice_deliver_before4bit h4 0 0x00 Dev.markUndef)
  · have hexec := exec_decodeDevice rs b s
    rw [decodeDevice_of_encodeDevice hwf henc, atDevice, Dev.arrive_before4bit h4] at hexec
    exact ⟨_, hexec, Dev.twoPulses_undef h4 hen hwait hb⟩

end Sys2Proof.Claims
end

section
/-! PROOFS of the device family: the text of a row. -/

namespace Sys2Proof.Machine

/-- Cells that are all known read as a text exactly when they are its bytes (R198). -/
theorem all_isSome_and_reduceOption_iff {cells : List (Option Byte)} {text : List Byte} :
    (cells.all Option.isSome = true ∧ cells.reduceOption = text) ↔ cells = text.map some := by
  constructor
  · rintro ⟨hknown, rfl⟩
    induction cells with
    | nil => rfl
    | cons c cs ih =>
      rw [List.all_cons, Bool.and_eq_true] at hknown
      obtain ⟨b, rfl⟩ := Option.isSome_iff_exists.mp hknown.1
      rw [List.reduceOption_cons_of_some, List.map_cons, ← ih hknown.2]
  · rintro rfl
    simp [List.reduceOption]

theorem rowText_eq_some_iff {row : Row} {d : Dev} {text : List Byte} :
    rowText row d = some text ↔ d.undef = false ∧ rowCells row d = text.map some := by
  rw [rowText, ← all_isSome_and_reduceOption_iff]
  split_ifs with hundef hknown
  · simp [hundef]
  · simp [hundef, hknown]
  · simp [hknown]

/-- The cells of a row are a text's bytes, column by column (R62, R198). -/
theorem rowCells_eq_map_some_iff {row : Row} {d : Dev} {text : List Byte} :
    rowCells row d = text.map some ↔
      text.length = d.w.val ∧ ∀ k, k < d.w.val → d.cellAt row (k + 1) = text[k]? := by
  rw [rowCells, List.ext_getElem_iff]
  simp only [List.length_map, List.length_range, List.getElem_map, List.getElem_range]
  refine ⟨fun ⟨hlen, hcells⟩ => ⟨hlen.symm, fun k hk => ?_⟩,
    fun ⟨hlen, hcells⟩ => ⟨hlen.symm, fun k hk _ => ?_⟩⟩
  · rw [hcells k hk (hlen ▸ hk), List.getElem?_eq_getElem]
  · rw [hcells k hk, List.getElem?_eq_getElem]

theorem rowText_of_undef {d : Dev} (h : d.undef = true) (row : Row) : rowText row d = none := if_pos h

theorem shown_of_on {d : Dev} (h : d.on = true) (row : Row) : shown row d = rowText row d := if_pos h

end Sys2Proof.Machine

namespace Sys2Proof.Claims

open Sys2Proof.Machine

/-- Settles O60: a text is read off a row exactly when it is the row's known cells (`rowText_eq_some_iff`). -/
theorem shownText : Obligations.ShownText := by
  refine ⟨fun d row hundef => ?_, fun d row text => ?_, fun d row hon => shown_of_on hon row⟩
  · have htext := rowText_of_undef hundef row
    exact ⟨htext, by rw [shown, htext, ite_self]⟩
  · rw [rowText_eq_some_iff, rowCells_eq_map_some_iff]

end Sys2Proof.Claims
end

section
/-! PROOFS of the alarm family: the transitions of the latch, and the pulses of the buzzer over a run. -/

namespace Sys2Proof.Machine

/-! ## The transitions of the latch (R221, R222) -/

/-- `Idle` to `Triggered`, the only transition that sounds the buzzer. -/
theorem afterAlm_one_of_idle {s : State} (hms : s.ms = 0) (htrig : s.trig = 0) : afterAlm 1 s = { s with
    buz := 0, trig := 1, tr := s.tr ++ [.buz 1, .s 5, .buz 0], rp := s.rp + 2,
    dev := { s.dev with wait := 0, hold := 0 } } := by
  have hstarts : alarmStarts s.trig 1 = true := by rw [htrig]; rfl
  rw [afterAlm, perform_of_ms hms, runActions_alm, if_pos hstarts, finish, hms]

theorem afterAlm_one_of_triggered {s : State} (hms : s.ms = 0) (htrig : s.trig = 1) :
    afterAlm 1 s = { s with rp := s.rp + 2 } := by
  have hstays : ¬alarmStarts s.trig 1 = true := by rw [htrig]; decide
  rw [afterAlm, perform_of_ms hms, runActions_alm, if_neg hstays, if_neg (by decide), finish, hms]

theorem afterAlm_zero {s : State} (hms : s.ms = 0) : afterAlm 0 s = { s with trig := 0, rp := s.rp + 2 } := by
  have hstays : ¬alarmStarts s.trig 0 = true := by simp [alarmStarts]
  rw [afterAlm, perform_of_ms hms, runActions_alm, if_neg hstays, if_pos rfl, finish, hms]

end Sys2Proof.Machine

namespace Sys2Proof.Claims

open Sys2Proof.Machine

/-! ## Where the runs of 1s start -/

/-- The number of readings that start a run of 1s, from the latch's value before them: the transitions from `Idle`
to `Triggered` (R221). -/
def runStarts : Bit → List Bit → Nat
  | _, [] => 0
  | trig, v :: vs => (if alarmStarts trig v then 1 else 0) + runStarts v vs

theorem runStarts_append (trig : Bit) (vs ws : List Bit) :
    runStarts trig (vs ++ ws) = runStarts trig vs + runStarts (vs.getLast?.getD trig) ws := by
  induction vs generalizing trig with
  | nil => simp [runStarts]
  | cons v vs ih => simp [runStarts, ih, List.getLast?_cons, Nat.add_assoc]

/-- From one reading to the next the level rises at a start and falls at an end. -/
theorem start_add_toNat_eq_end_add_toNat : ∀ trig v : Bit, (if alarmStarts trig v then 1 else 0) + trig.toNat =
    (if trig = 1 ∧ v = 0 then 1 else 0) + v.toNat := by decide

/-- A 1 before the readings belongs to a run that started before them: the starts, with that one added, are as many
as the ends that `runsOfOnes` counts. -/
theorem runStarts_add_toNat (trig : Bit) (vs : List Bit) :
    runStarts trig vs + trig.toNat = runsOfOnes (trig :: vs) := by
  induction vs generalizing trig with
  | nil => obtain rfl | rfl := BitVec.eq_zero_or_eq_one trig <;> rfl
  | cons v vs ih =>
    have hbalance := start_add_toNat_eq_end_add_toNat trig v
    rw [runStarts, runsOfOnes, ← ih v]
    omega

theorem runsOfOnes_zero_cons (vs : List Bit) : runsOfOnes (0 :: vs) = runsOfOnes vs := by
  cases vs with
  | nil => rfl
  | cons v vs => simp [runsOfOnes]

/-- From an idle latch every run starts among the readings. -/
theorem runStarts_zero (vs : List Bit) : runStarts 0 vs = runsOfOnes vs :=
  (runStarts_add_toNat 0 vs).trans (runsOfOnes_zero_cons vs)

/-! ## What a request makes of the readings -/

theorem buzzerPulses_append (es fs : List Event) :
    buzzerPulses (es ++ fs) = buzzerPulses es + buzzerPulses fs := by
  induction es with
  | nil => simp [buzzerPulses]
  | cons e es ih => cases e <;> simp [buzzerPulses, ih, Nat.add_assoc]

theorem buzzerPulses_of_quiet {as : List Action} (h : quiet as = true) : buzzerPulses (eventsOf as) = 0 := by
  induction as with
  | nil => rfl
  | cons a as ih =>
    cases a with
    | ev e =>
      cases e with
      | buz _ => cases h
      | rs _ | en _ | db _ | t _ | s _ => exact ih h
    | setTrig _ => cases h
    | latch _ _ | markUndef => exact ih h

theorem alarmInputs_cons (i : Instr) (is : List Instr) :
    alarmInputs (i :: is) = alarmInputs [i] ++ alarmInputs is := by
  cases i <;> rfl

theorem alarmInputs_of_ne {i : Instr} (halm : ∀ v, i ≠ .alm v) (hmon : ∀ r, i ≠ .mon r) :
    alarmInputs [i] = [] := by
  cases i with
  | alm v => exact absurd rfl (halm v)
  | mon r => exact absurd rfl (hmon r)
  | _ => rfl

/-- From `s` to `t` the latch has read `vs`: it holds the last of them, and the buzzer has sounded once for each start
of a run and is silent again (R223). -/
structure LatchReads (vs : List Bit) (s t : State) : Prop where
  ms : t.ms = 0
  buz : s.buz = 0 → t.buz = 0
  trig : t.trig = vs.getLast?.getD s.trig
  pulses : ∃ evs, t.tr = s.tr ++ evs ∧ buzzerPulses evs = runStarts s.trig vs

theorem LatchReads.refl {s : State} (hms : s.ms = 0) : LatchReads [] s s :=
  ⟨hms, id, rfl, [], (List.append_nil _).symm, rfl⟩

theorem LatchReads.trans {vs ws : List Bit} {s t u : State} (h : LatchReads vs s t) (h' : LatchReads ws t u) :
    LatchReads (vs ++ ws) s u := by
  obtain ⟨es, hes, hespulses⟩ := h.pulses
  obtain ⟨fs, hfs, hfspulses⟩ := h'.pulses
  refine ⟨h'.ms, h'.buz ∘ h.buz, ?_, es ++ fs, ?_, ?_⟩
  · rw [h'.trig, h.trig, List.getLast?_append, Option.getD_or]
  · rw [hfs, hes, List.append_assoc]
  · rw [buzzerPulses_append, hespulses, hfspulses, h.trig, runStarts_append]

/-- `ALM v` is the reading `v`: only the transition from `Idle` to `Triggered` starts a run. -/
theorem afterAlm_latchReads {s : State} (hms : s.ms = 0) (v : Bit) : LatchReads [v] s (afterAlm v s) := by
  obtain rfl | rfl : v = 0 ∨ v = 1 := BitVec.eq_zero_or_eq_one v
  · rw [afterAlm_zero hms]
    exact ⟨hms, id, rfl, [], (List.append_nil _).symm, by simp [buzzerPulses, runStarts, alarmStarts]⟩
  · obtain htrig | htrig : s.trig = 0 ∨ s.trig = 1 := BitVec.eq_zero_or_eq_one s.trig
    · rw [afterAlm_one_of_idle hms htrig]
      exact ⟨hms, fun _ => rfl, rfl, _, rfl, by rw [htrig]; rfl⟩
    · rw [afterAlm_one_of_triggered hms htrig]
      exact ⟨hms, id, htrig, [], (List.append_nil _).symm, by rw [htrig]; rfl⟩

/-- A request reads what `ALM` gives it, and any other request nothing. -/
theorem exec_request_latchReads {i : Instr} (hi : i.format = .req) {s : State} (hms : s.ms = 0) :
    ∃ t, exec i s = .next t ∧ LatchReads (alarmInputs [i]) s t := by
  by_cases halm : ∃ v, i = .alm v
  · obtain ⟨v, rfl⟩ := halm
    exact ⟨_, rfl, afterAlm_latchReads hms v⟩
  · obtain ⟨as, has⟩ := requestActions_of_format hi s.trig s.dev.w
    have isQuiet := quiet_of_requestActions has fun v hv => halm ⟨v, hv⟩
    obtain ⟨hbuz, htrig⟩ := runActions_quiet (s := s) isQuiet
    have hnone : alarmInputs [i] = [] :=
      alarmInputs_of_ne (fun v hv => halm ⟨v, hv⟩) (by rintro r rfl; cases hi)
    refine ⟨_, exec_of_requestActions has, ?_⟩
    rw [hnone, perform_of_ms hms]
    exact ⟨rfl, hbuz.trans, htrig, _, runActions_tr as s, buzzerPulses_of_quiet isQuiet⟩

/-- If each operation of a list reads its own input, the list reads its inputs in order (R69). -/
theorem execAll_latchReads {is : List Instr}
    (each : ∀ i ∈ is, ∀ s : State, s.ms = 0 → ∃ t, exec i s = .next t ∧ LatchReads (alarmInputs [i]) s t)
    {s : State} (hms : s.ms = 0) : ∃ t, execAll is s = .next t ∧ LatchReads (alarmInputs is) s t := by
  induction is generalizing s with
  | nil => exact ⟨s, rfl, .refl hms⟩
  | cons i is ih =>
    rw [List.forall_mem_cons] at each
    obtain ⟨t, ht, hst⟩ := each.1 s hms
    obtain ⟨u, hu, htu⟩ := ih each.2 hst.ms
    rw [alarmInputs_cons]
    exact ⟨u, by simp only [execAll, ht, hu], hst.trans htu⟩

/-- Among the eight requests of `MON r` the one `ALM` reads `over(r)` (R250). -/
theorem alarmInputs_expansion (w : Width) (r : BitVec 10) :
    alarmInputs (expansion w r) = alarmInputs [.mon r] := rfl

theorem exec_operation_latchReads {i : Instr} (hi : IsOperation i) {s : State} (hms : s.ms = 0) :
    ∃ t, exec i s = .next t ∧ LatchReads (alarmInputs [i]) s t := by
  obtain hreq | hpseudo := hi
  · exact exec_request_latchReads hreq hms
  · obtain ⟨r, rfl⟩ := eq_mon_of_format hpseudo
    rw [exec_mon_eq_execAll, ← alarmInputs_expansion s.dev.w]
    exact execAll_latchReads (fun i hi _ => exec_request_latchReads (format_of_mem_expansion hi)) hms

/-- Settles O45: the buzzer sounds at each transition from `Idle` to `Triggered`, and from an idle latch these are the
starts of the runs. -/
theorem alarmPulsesOncePerRun : Obligations.AlarmPulsesOncePerRun := by
  refine ⟨fun is s his hms htrig hbuz => ?_, fun v s hms => ⟨_, rfl, (afterAlm_latchReads hms v).trig⟩⟩
  obtain ⟨t, ht, hreads⟩ := execAll_latchReads (fun i hi _ => exec_operation_latchReads (his i hi)) hms
  obtain ⟨evs, htr, hpulses⟩ := hreads.pulses
  rw [htrig, runStarts_zero] at hpulses
  exact ⟨t, evs, ht, htr, hpulses, htrig ▸ hreads.trig, hreads.buz hbuz⟩

/-- Settles O44, by the transitions of the latch; an operand above 1 is reserved (R100). -/
theorem alarmTransitions : Obligations.AlarmTransitions := by
  refine ⟨fun s hms => ⟨fun htrig => ?_, fun htrig => ?_, ?_⟩,
    fun _ rest hv => decodeRequest_of_reserved_alarm hv rest⟩
  · exact ⟨_, congrArg Host.Outcome.next (afterAlm_one_of_idle hms htrig), fun _ => rfl⟩
  · exact congrArg Host.Outcome.next (afterAlm_one_of_triggered hms htrig)
  · exact congrArg Host.Outcome.next (afterAlm_zero hms)

end Sys2Proof.Claims
end
section
/-! PROOFS of the monitor family: the delay, the comparison with the threshold, and the texts. -/

namespace Sys2Proof.Machine

/-! ## The delay -/

theorem afterDly_timeUnits {s : State} (h : s.ms = 0) (k : Byte) : afterDly .timeUnits k s = { s with
    tr := s.tr ++ [.t k.toNat], rp := s.rp + 3, dev := s.dev.delayTu k.toNat } := by
  rw [afterDly, perform_of_ms h, runActions_dly_timeUnits, finish, h]

theorem afterDly_seconds {s : State} (h : s.ms = 0) (k : Byte) : afterDly .seconds k s = { s with
    tr := s.tr ++ [.s k.toNat], rp := s.rp + 3, dev := s.dev.delayS k.toNat } := by
  rw [afterDly, perform_of_ms h, runActions_dly_seconds, finish, h]

/-! ## The comparison with the threshold -/

theorem overT_eq_one_iff {t : Temperature} : overT t = 1 ↔ 80 * t.den < t.num := by
  have hthreshold : Config.THRESHOLD = 80 := rfl
  rw [overT, hthreshold]
  split
  · exact iff_of_true rfl ‹_›
  · exact iff_of_false (by decide) ‹_›

@[simp] theorem temp_num (r : BitVec 10) : (temp r).num = 61 * r.toNat := rfl
@[simp] theorem temp_den (r : BitVec 10) : (temp r).den = 125 := rfl

/-! ## Rounding to hundredths -/

/-- The whole hundredths of a temperature, or one more where what is left of it is at least a half (R247). -/
theorem hundredths_cases (t : Temperature) :
    (hundredths t = 100 * t.num / t.den ∧ 2 * (100 * t.num % t.den) ≤ t.den)
      ∨ (hundredths t = 100 * t.num / t.den + 1 ∧ t.den ≤ 2 * (100 * t.num % t.den)) := by
  simp only [hundredths]
  split_ifs with hbelow htie _
  · exact .inl ⟨rfl, hbelow.le⟩
  · exact .inr ⟨rfl, htie.ge⟩
  · exact .inl ⟨rfl, htie.le⟩
  · exact .inr ⟨rfl, Nat.le_of_not_lt hbelow⟩

/-- A temperature and its hundredths are at most half a hundredth apart (R247). -/
theorem hundredths_nearest {t : Temperature} (hden : 0 < t.den) :
    2 * hundredths t * t.den ≤ 200 * t.num + t.den ∧ 200 * t.num ≤ (2 * hundredths t + 1) * t.den := by
  have hdiv := Nat.div_add_mod' (100 * t.num) t.den
  have hrest := Nat.mod_lt (100 * t.num) hden
  have hrest0 := Nat.zero_le (100 * t.num % t.den)
  obtain ⟨hh, hhalf⟩ | ⟨hh, hhalf⟩ := hundredths_cases t
  all_goals
    rw [hh]
    constructor <;> linarith

/-- Off a tie a number of thousandths goes to the hundredth that `(m + 5) div 10` names (R247). -/
theorem hundredths_of_thousandths {m : Nat} (h : m % 10 ≠ 5) : hundredths ⟨m, 1000⟩ = (m + 5) / 10 := by
  have hcases := hundredths_cases ⟨m, 1000⟩
  simp only at hcases
  omega

/-! ## The status text -/

/-- The status text is one of two, of 13 and 12 characters, filled up with spaces (R245). -/
theorem statusT_eq (w : Width) (t : Temperature) : statusT w t =
    if overT t = 1 then hotText ++ spaces (w.val - 13) else normalText ++ spaces (w.val - 12) := by
  rw [statusT]
  split <;> rfl

end Sys2Proof.Machine

namespace Sys2Proof.Claims

open Sys2Proof.Machine

theorem isNumeral_decimal (n : Nat) : IsNumeral (decimal n) := by
  obtain ⟨hne, hdigits⟩ := decimalFrom_digits (Nat.lt_succ_self n)
  refine ⟨hne, hdigits, ?_⟩
  cases n with
  | zero => exact .inl rfl
  | succ n => exact .inr (decimalFrom_head (Nat.lt_succ_self _) n.succ_pos)

theorem numeralValue_decimal (n : Nat) : numeralValue (decimal n) = n := decimalFrom_value (Nat.lt_succ_self n)

/-- Settles O46: the delay reaches the device by R181, whether it is defined or not. -/
theorem delayResult : Obligations.DelayResult := by
  refine ⟨fun k s hms => ⟨⟨_, congrArg Host.Outcome.next (afterDly_timeUnits hms k), fun _ => rfl⟩,
    fun hk => ⟨_, congrArg Host.Outcome.next (afterDly_seconds hms k), fun _ => Dev.delayS_of_pos hk s.dev⟩,
    ?_⟩, fun _ k rest hu => decodeRequest_of_reserved_unit hu k rest⟩
  rintro rfl
  exact congrArg Host.Outcome.next (afterDly_seconds hms 0)

/-- Settles O47: `61 * r` is above `80 * 125` from 164 on, and 10000 is no multiple of 61. -/
theorem overIsStrict : Obligations.OverIsStrict := by
  refine ⟨fun _ => overT_eq_one_iff, fun r => ?_, rfl, rfl, fun r => ?_⟩
  · rw [overRaw, overT_eq_one_iff, temp_num, temp_den]
    omega
  · rw [temp_num, temp_den]
    omega

/-- Settles O48: the hundredths are nearest on either side of a tie, and the digits are those of the numeral. -/
theorem twoDecimalText : Obligations.TwoDecimalText :=
  ⟨fun t hden => ⟨hundredths t, decimal (hundredths t / 100), (hundredths_nearest hden).1,
    (hundredths_nearest hden).2, isNumeral_decimal _, numeralValue_decimal _, rfl⟩,
    fun _ => hundredths_of_thousandths⟩

/-- Settles O49: each text as its definition writes it, filled up from the 13 or 12 characters it has. -/
theorem textsFitTheirRows : Obligations.TextsFitTheirRows := by
  refine ⟨statusT_eq Config.W, statusT_eq, fun _ => rfl, fun r => ?_, by decide, by decide⟩
  exact ⟨fun _ => rfl, rfl, length_status_W r, length_value r⟩

end Sys2Proof.Claims
end

section
/-! PROOFS of the monitor family: the state after `MON`. -/

namespace Sys2Proof.Machine

/-! ## What a text leaves of the device -/

/-- The two devices differ in the cells, the cursor, and what a byte's pulses latch: the configuration, the lines'
side, the wait and the mark are the same (R195). -/
def Dev.SameSetup (d e : Dev) : Prop := ∃ hn hrs hold cell cur,
  e = { d with hn := hn, hrs := hrs, hold := hold, cell := cell, cur := cur }

theorem Dev.SameSetup.refl (d : Dev) : d.SameSetup d := ⟨_, _, _, _, _, rfl⟩

theorem Dev.SameSetup.trans {d e f : Dev} (h : d.SameSetup e) (h' : e.SameSetup f) : d.SameSetup f := by
  obtain ⟨_, _, _, _, _, rfl⟩ := h
  obtain ⟨_, _, _, _, _, rfl⟩ := h'
  exact ⟨_, _, _, _, _, rfl⟩

theorem Dev.SameSetup.w {d e : Dev} (h : d.SameSetup e) : e.w = d.w := by
  obtain ⟨_, _, _, _, _, rfl⟩ := h
  rfl

theorem Dev.SameSetup.on {d e : Dev} (h : d.SameSetup e) : e.on = d.on := by
  obtain ⟨_, _, _, _, _, rfl⟩ := h
  rfl

/-- A device that stays defined through a text has its setup as before (R195). -/
theorem Dev.Paired.textSent_sameSetup {text : List Byte} {d : Dev} (hp : d.Paired)
    (h : (text.foldl (fun d b => d.byteSent 1 b) d).undef = false) :
    d.SameSetup (text.foldl (fun d b => d.byteSent 1 b) d) := by
  induction text generalizing d with
  | nil => exact .refl d
  | cons b bs ih =>
    rw [List.foldl_cons] at h ⊢
    have hdefined : (d.byteSent 1 b).undef = false :=
      Bool.eq_false_of_not_eq_true fun hu => nomatch (Dev.textSent_undef hu).symm.trans h
    obtain ⟨c, -, hsent⟩ := hp.byteSent_char hdefined
    have hpaired : (d.byteSent 1 b).Paired := by rw [hsent]; exact ⟨hp.ph, hp.en⟩
    have hsetup : d.SameSetup (d.byteSent 1 b) := ⟨_, _, _, _, _, hsent⟩
    exact hsetup.trans (ih hpaired h)

/-! ## A text from column 1 of a row on -/

/-- A display on which text can be put on either row: initialized, settled, and with columns at all (R253). -/
structure Dev.Ready (d : Dev) : Prop where
  defined : d.defined
  aligned : d.Aligned
  lines2 : d.lines2 = true
  inc : d.inc = true
  columns : 1 ≤ d.w.val

theorem Dev.Ready.sameSetup {d e : Dev} (h : d.Ready) (hsetup : d.SameSetup e) : e.Ready := by
  obtain ⟨_, _, _, _, _, rfl⟩ := hsetup
  exact ⟨h.defined, ⟨h.aligned.if4, h.aligned.ph, h.aligned.wait, h.aligned.en⟩, h.lines2, h.inc, h.columns⟩

/-- The row operand of `CUR` (R107). -/
def Row.operand : Row → Byte
  | .row1 => 1
  | .row2 => 2

/-- `CUR row, 1` at a display that is ready: only the cursor and what the pulses latch change (R156). -/
theorem afterCur_dev_of_ready {s : State} (hms : s.ms = 0) (h : s.dev.Ready) (row : Row) :
    (afterCur row.operand 1 s).dev =
      { s.dev.latched 0 (cursorByte row.operand 1) with cur := some ⟨row, 1⟩ } := by
  have hcolumns := h.columns
  have hcol : 1 ≤ (1 : Byte).toNat ∧ (1 : Byte).toNat ≤ s.dev.w.val := ⟨Nat.le_refl 1, hcolumns⟩
  rw [afterCur_dev_of_column hms hcol]
  cases row with
  | row1 =>
    have hbyte : (cursorByte (Row.operand .row1) 1).toNat = 0x80 := by decide
    rw [Dev.byteSent_row1 h.aligned (by omega), hbyte, ← h.aligned.wait]
    rfl
  | row2 =>
    have hbyte : (cursorByte (Row.operand .row2) 1).toNat = 0xC0 := by decide
    rw [Dev.byteSent_row2 h.aligned (by omega) h.lines2, hbyte, ← h.aligned.wait]
    rfl

/-- From `d` to `e` a text has been put on a row from column 1 on, and the cursor is behind it (R156, R158). -/
structure Dev.Printed (row : Row) (text : List Byte) (d e : Dev) : Prop where
  setup : d.SameSetup e
  cur : e.cur = some ⟨row, 1 + text.length⟩
  written : ∀ k, k < text.length → e.cellAt row (1 + k) = text[k]?
  elsewhere : ∀ a, (∀ k, k < text.length → a ≠ cellAddr row (1 + k)) → Memory.read a e.cell = Memory.read a d.cell

/-- The state after `CUR row, 1` and `STR text`. -/
def afterPrint (row : Row) (text : List Byte) (s : State) : State := afterStr text (afterCur row.operand 1 s)

theorem afterPrint_ms (row : Row) (text : List Byte) (s : State) : (afterPrint row text s).ms = 0 :=
  perform_ms _ _ _

/-- A text no longer than the row is put there character by character. -/
theorem afterPrint_printed {s : State} (hms : s.ms = 0) (h : s.dev.Ready) (row : Row) {text : List Byte}
    (hfits : text.length ≤ s.dev.w.val) : Dev.Printed row text s.dev (afterPrint row text s).dev := by
  have hcursor := afterCur_dev_of_ready hms h row
  have hsetup : s.dev.SameSetup (afterCur row.operand 1 s).dev := ⟨_, _, _, _, _, hcursor⟩
  have hready := h.sameSetup hsetup
  have hcur : (afterCur row.operand 1 s).dev.cur = some ⟨row, 1⟩ := by rw [hcursor]
  have hcell : (afterCur row.operand 1 s).dev.cell = s.dev.cell := by rw [hcursor]; rfl
  have hms' : (afterCur row.operand 1 s).ms = 0 := perform_ms _ _ _
  have hfits' : 1 + text.length ≤ (afterCur row.operand 1 s).dev.w.val + 1 := by rw [hsetup.w]; omega
  obtain ⟨hundef, -, hbehind, hwritten⟩ := Dev.textSent_of_fits (afterStr_dev hms' text).symm hready.defined
    hready.aligned hready.inc hcur (Nat.le_refl 1) hfits'
  have hpaired := hready.aligned.paired
  rw [afterStr_dev hms'] at hundef
  refine ⟨hsetup.trans ?_, hbehind, hwritten, fun a ha => ?_⟩
  · rw [afterPrint, afterStr_dev hms']
    exact hpaired.textSent_sameSetup hundef
  · rw [afterPrint, afterStr_dev hms', ← hcell]
    refine hpaired.textSent_read hundef fun c k hc hk => ?_
    cases hcur.symm.trans hc
    exact ha k hk

/-! ## What a printed text leaves -/

/-- A cell of another row has another address (R62). -/
theorem cellAddr_ne_of_row_ne {w : Width} {row row' : Row} {col col' : Nat} (hrow : row ≠ row')
    (h : 1 ≤ col ∧ col ≤ w.val) (h' : 1 ≤ col' ∧ col' ≤ w.val) : cellAddr row col ≠ cellAddr row' col' := by
  intro heq
  have hcell := cellOf_cellAddr (row := row) h
  rw [heq, cellOf_cellAddr h'] at hcell
  cases hcell
  exact hrow rfl

section Printed

variable {row : Row} {text : List Byte} {d e : Dev} (h : Dev.Printed row text d e)
include h

/-- An address that is no cell's stays as it was. -/
theorem Dev.Printed.read_no_cell {w : Width} (hfits : text.length ≤ w.val) {a : Nat} (ha : cellOf w a = none) :
    Memory.read a e.cell = Memory.read a d.cell := by
  refine h.elsewhere a ?_
  rintro k hk rfl
  cases ha.symm.trans (cellOf_cellAddr ⟨Nat.le_add_right 1 k, by omega⟩)

/-- The row stays as it was behind the text. -/
theorem Dev.Printed.cellAt_behind {k : Nat} (hk : text.length ≤ k) :
    e.cellAt row (1 + k) = d.cellAt row (1 + k) :=
  h.elsewhere _ fun j hj => (cellAddr_ne (Nat.le_add_right 1 j) (by omega)).symm

/-- The other row stays as it was. -/
theorem Dev.Printed.rowCells_other (hfits : text.length ≤ d.w.val) {row' : Row} (hrow : row' ≠ row) :
    rowCells row' e = rowCells row' d := by
  unfold rowCells
  rw [h.setup.w]
  refine List.map_congr_left fun k hk => h.elsewhere _ fun j hj => ?_
  have hcol : k < d.w.val := List.mem_range.mp hk
  exact cellAddr_ne_of_row_ne (w := d.w) hrow ⟨Nat.le_add_left 1 k, hcol⟩ ⟨Nat.le_add_right 1 j, by omega⟩

/-- A text over the whole row reads as that text. -/
theorem Dev.Printed.rowCells_full (hfull : text.length = d.w.val) : rowCells row e = text.map some := by
  rw [rowCells_eq_map_some_iff, h.setup.w]
  refine ⟨hfull, fun k hk => ?_⟩
  rw [Nat.add_comm k 1, h.written k (hfull ▸ hk)]

end Printed

theorem length_spaces (n : Nat) : (spaces n).length = n := List.length_replicate

theorem getElem?_spaces {n k : Nat} (h : k < n) : (spaces n)[k]? = some 0x20 := List.getElem?_replicate_of_lt h

/-- Spaces over the whole row and then a text read as the text filled with spaces (R245, R250). -/
theorem rowCells_of_blanked {row : Row} {text : List Byte} {d e f : Dev}
    (hblank : Dev.Printed row (spaces d.w.val) d e) (htext : Dev.Printed row text e f)
    (hfits : text.length ≤ d.w.val) : rowCells row f = (padTo d.w.val text).map some := by
  rw [rowCells_eq_map_some_iff, (hblank.setup.trans htext.setup).w, length_padTo]
  refine ⟨Nat.max_eq_right hfits, fun k hk => ?_⟩
  rw [Nat.add_comm k 1, padTo]
  by_cases hin : k < text.length
  · rw [htext.written k hin, List.getElem?_append_left hin]
  · have hbehind : text.length ≤ k := Nat.le_of_not_lt hin
    rw [htext.cellAt_behind hbehind, hblank.written k (by rwa [length_spaces]),
      List.getElem?_append_right hbehind, getElem?_spaces hk, getElem?_spaces (by omega)]

/-! ## The texts of `MON` -/

/-- The value text ends in the letter `C` (R246). -/
theorem value_getLast? (r : BitVec 10) : (value r).getLast? = some 0x43 := by
  rw [value, valueT, List.getLast?_append]
  rfl

/-- On a row that holds it the status text fills the row; in the reference usage the rows hold both texts (R245,
R246; log entry 16). -/
theorem texts_fit {w : Width} {r : BitVec 10}
    (h : w = Config.W ∨ ((status w r).length ≤ w.val ∧ (value r).length ≤ w.val)) :
    (status w r).length = w.val ∧ (value r).length ≤ w.val := by
  obtain rfl | ⟨hstatus, hvalue⟩ := h
  · obtain ⟨-, hvalue⟩ := length_value r
    exact ⟨length_status_W r, Nat.le_trans hvalue (by decide)⟩
  · refine ⟨Nat.le_antisymm hstatus ?_, hvalue⟩
    rw [status, length_statusT]
    exact Nat.le_max_right ..

/-- From `d` to `e` the status has been put on row 1 and the value, filled with spaces, on row 2 (R253). -/
structure Dev.Shows (r : BitVec 10) (d e : Dev) : Prop where
  setup : d.SameSetup e
  row1 : rowCells .row1 e = (status d.w r).map some
  row2 : rowCells .row2 e = (padTo d.w.val (value r)).map some
  cur : e.cur = some ⟨.row2, 1 + (value r).length⟩
  noCell : ∀ a, cellOf d.w a = none → Memory.read a e.cell = Memory.read a d.cell

/-- The status over the whole of row 1, spaces over the whole of row 2, and the value there: whatever the rows held
before is gone (R250). -/
theorem Dev.shows_of_printed {r : BitVec 10} {d d₁ d₂ e : Dev}
    (h₁ : Dev.Printed .row1 (status d.w r) d d₁) (h₂ : Dev.Printed .row2 (spaces d.w.val) d₁ d₂)
    (h₃ : Dev.Printed .row2 (value r) d₂ e) (hstatus : (status d.w r).length = d.w.val)
    (hvalue : (value r).length ≤ d.w.val) : Dev.Shows r d e := by
  have hw₁ : d₁.w = d.w := h₁.setup.w
  have hw₂ : d₂.w = d.w := h₂.setup.w.trans hw₁
  have hspaces : (spaces d.w.val).length ≤ d.w.val := (length_spaces _).le
  refine ⟨(h₁.setup.trans h₂.setup).trans h₃.setup, ?_, ?_, h₃.cur, fun a ha => ?_⟩
  · rw [h₃.rowCells_other (by rwa [hw₂]) (by decide), h₂.rowCells_other (by rwa [hw₁]) (by decide),
      h₁.rowCells_full hstatus]
  · rw [← hw₁] at h₂ hvalue ⊢
    exact rowCells_of_blanked h₂ h₃ hvalue
  · rw [h₃.read_no_cell hvalue ha, h₂.read_no_cell hspaces ha, h₁.read_no_cell hstatus.le ha]

theorem Dev.Shows.withHold {r : BitVec 10} {d e : Dev} (h : Dev.Shows r d e) (hold : Nat) :
    Dev.Shows r d { e with hold := hold } := by
  obtain ⟨⟨_, _, _, _, _, rfl⟩, hrow1, hrow2, hcur, hnoCell⟩ := h
  exact ⟨⟨_, _, _, _, _, rfl⟩, hrow1, hrow2, hcur, hnoCell⟩

/-- The state after the six requests of `MON` that put its texts on the display (R250). -/
def afterTexts (r : BitVec 10) (s : State) : State :=
  afterPrint .row2 (value r) (afterPrint .row2 (spaces s.dev.w.val) (afterPrint .row1 (status s.dev.w r) s))

theorem afterTexts_shows {r : BitVec 10} {s : State} (hms : s.ms = 0) (h : s.dev.Ready)
    (hstatus : (status s.dev.w r).length = s.dev.w.val) (hvalue : (value r).length ≤ s.dev.w.val) :
    Dev.Shows r s.dev (afterTexts r s).dev := by
  have h₁ := afterPrint_printed hms h .row1 hstatus.le
  have h₂ := afterPrint_printed (afterPrint_ms ..) (h.sameSetup h₁.setup) .row2 (text := spaces s.dev.w.val)
    (by rw [h₁.setup.w, length_spaces])
  have hsetup₂ := h₁.setup.trans h₂.setup
  have h₃ := afterPrint_printed (afterPrint_ms ..) (h.sameSetup hsetup₂) .row2 (text := value r)
    (by rwa [hsetup₂.w])
  exact Dev.shows_of_printed h₁ h₂ h₃ hstatus hvalue

/-- After a text the registers of the byte transmission are at its last character (R158). -/
theorem afterStr_busSide {s : State} (hms : s.ms = 0) {text : List Byte} {b : Byte}
    (hb : text.getLast? = some b) : busSide (afterStr text s) = (1, 0, loNibble b, b, 1) := by
  have hne : text ≠ [] := by rintro rfl; cases hb
  rw [afterStr, perform_of_ms hms, runActions_str]
  simp [busSide, hne, hb]

/-! ## The alarm and the delay of `MON` -/

/-- A delay at a settled device ends a hold at most (R181). -/
theorem Dev.delayS_of_settled {d : Dev} (h : d.wait = 0) (k : Nat) :
    ∃ hold, d.delayS k = { d with hold := hold } := by
  unfold Dev.delayS
  split
  · exact ⟨d.hold, rfl⟩
  · exact ⟨0, by rw [← h]⟩

theorem afterAlm_dev_of_settled {s : State} (hms : s.ms = 0) (h : s.dev.wait = 0) (v : Bit) :
    ∃ hold, (afterAlm v s).dev = { s.dev with hold := hold } := by
  rw [afterAlm, perform_dev_of_ms hms, runActions_alm]
  split_ifs
  · exact ⟨0, by rw [← h]⟩
  · exact ⟨s.dev.hold, rfl⟩
  · exact ⟨s.dev.hold, rfl⟩

/-- The state after the two requests of `MON` that send no byte, the alarm and the pacing delay (R250). -/
def afterAlarmAndPace (v : Bit) (s : State) : State := afterDly .seconds Config.PACE (afterAlm v s)

theorem afterAlarmAndPace_dev {s : State} (hms : s.ms = 0) (h : s.dev.wait = 0) (v : Bit) :
    ∃ hold, (afterAlarmAndPace v s).dev = { s.dev with hold := hold } := by
  obtain ⟨hold, halm⟩ := afterAlm_dev_of_settled hms h v
  obtain ⟨hold', hdly⟩ := Dev.delayS_of_settled (d := { s.dev with hold := hold }) h Config.PACE.toNat
  have hms' : (afterAlm v s).ms = 0 := perform_ms ..
  rw [afterAlarmAndPace, afterDly_seconds hms', halm]
  exact ⟨hold', hdly⟩

theorem afterAlarmAndPace_busSide (v : Bit) (s : State) : busSide (afterAlarmAndPace v s) = busSide s :=
  (perform_busSide (dlyActions_offBus .seconds Config.PACE) 3 _).trans
    (perform_busSide (almActions_offBus v s.trig) 2 s)

/-- `MON` is its texts, then the alarm at `over(r)` and the delay (R250). -/
theorem exec_mon (r : BitVec 10) (s : State) :
    exec (.mon r) s = .next (afterAlarmAndPace (overRaw r) (afterTexts r s)) := rfl

end Sys2Proof.Machine

namespace Sys2Proof.Claims

open Sys2Proof.Machine

/-- Settles O51: the texts cover both rows (`afterTexts_shows`), the last byte sent is the value's `C`, the alarm's
one reading is `over(r)` (`exec_operation_latchReads`), and neither it nor the delay sends a byte. -/
theorem monitorEndState : Obligations.MonitorEndState := by
  intro r s hms hbuz hdef haligned hlines2 hinc hfit
  obtain ⟨hstatus, hvalue⟩ := texts_fit hfit
  obtain ⟨hlong, -⟩ := length_value r
  have hready : s.dev.Ready := ⟨hdef, haligned, hlines2, hinc, by omega⟩
  have htexts := afterTexts_shows hms hready hstatus hvalue
  have hsettled : (afterTexts r s).dev.wait = 0 := (hready.sameSetup htexts.setup).aligned.wait
  obtain ⟨hold, hdev⟩ := afterAlarmAndPace_dev (perform_ms ..) hsettled (overRaw r)
  have hshows := hdev ▸ htexts.withHold hold
  obtain ⟨hundef, ⟨hif4, hph, hwait, -⟩, hlines2', hinc', -⟩ := hready.sameSetup hshows.setup
  have hon : (afterAlarmAndPace (overRaw r) (afterTexts r s)).dev.on = s.dev.on := hshows.setup.on
  have hbus : busSide (afterAlarmAndPace (overRaw r) (afterTexts r s)) = (1, 0, 0x3, 0x43, 1) :=
    (afterAlarmAndPace_busSide _ _).trans (afterStr_busSide (perform_ms ..) (value_getLast? r))
  simp only [busSide, Prod.mk.injEq] at hbus
  obtain ⟨hrs, hen, hdb, hbyte, hmode⟩ := hbus
  obtain ⟨t, ht, hlatch⟩ := exec_operation_latchReads (i := .mon r) (.inr rfl) hms
  obtain rfl : afterAlarmAndPace (overRaw r) (afterTexts r s) = t := Host.Outcome.next.inj ht
  exact ⟨_, exec_mon r s, rowText_eq_some_iff.mpr ⟨hundef, hshows.row1⟩,
    rowText_eq_some_iff.mpr ⟨hundef, hshows.row2⟩, hshows.cur, hwait, hundef, hlatch.trig, hlatch.buz hbuz, hrs,
    hdb, hen, hbyte, hmode, hif4, hph, hlines2', hinc', hon, hshows.noCell⟩

end Sys2Proof.Claims
end

section
/-! PROOFS of the exceptions family: a step faults on no state, and only an earlier refusal stops the run. -/

namespace Sys2Proof.Machine

/-! ## Where `fetch` stops -/

/-- A ready sequencer always has something to do: bytes that are no request are refused by a state that is
reached (R99 to R101), not by stopping the run. -/
theorem fetchRequest_ne_stop (s : State) (r : Refusal) : fetchRequest s ≠ .stop r := by
  intro h
  obtain ⟨i, rest, -, hrun⟩ | hend | ⟨reason, hrefuse⟩ := fetchRequest_cases s
  · cases hrun.symm.trans h
  · cases hend.symm.trans h
  · cases hrefuse.symm.trans h

/-- A run stops only where it was refused before, with that refusal's own reason (R27). -/
theorem fetch_stop {s : State} {r : Refusal} (h : fetch s = .stop r) :
    s.seq = .refused ∧ s.port = none ∧ r = .requestRefused s.refused := by
  cases hp : s.port with
  | some p => cases (fetch_of_port hp).symm.trans h
  | none =>
    cases hs : s.seq with
    | ready => exact absurd ((fetch_of_ready hp hs).symm.trans h) (fetchRequest_ne_stop s r)
    | ended => cases (fetch_of_ended hp hs).symm.trans h
    | refused => cases (fetch_of_refused hp hs).symm.trans h; exact ⟨rfl, rfl, rfl⟩

end Sys2Proof.Machine

namespace Sys2Proof.Claims

open Sys2Proof.Machine

/-- Settles O13: whatever instruction is fetched answers a next state (`exec_answers`), and a fetch stops only in
a run refused before (`fetch_stop`). -/
theorem stepAlwaysAnswers : Obligations.StepAlwaysAnswers := by
  intro s
  cases hf : fetch s with
  | run i t =>
    obtain ⟨u, hu, -⟩ := exec_answers i t
    exact .inl ⟨u, by simp only [step, hf, hu]⟩
  | rest t => exact .inl ⟨t, by simp only [step, hf]⟩
  | stop r =>
    obtain ⟨hrefused, hport, rfl⟩ := fetch_stop hf
    exact .inr ⟨hrefused, hport, by simp only [step, hf]⟩

end Sys2Proof.Claims
end

section
/-! PROOFS of the hazards family: a text that does not fit in its row. -/

namespace Sys2Proof.Machine

/-- A text that ends past column `W` from wherever the cursor is known to be makes the device undefined: a character
sent with the cursor on a column leaves the rest of the text to a cursor one column on or unknown (R195, R311). -/
theorem Dev.textSent_undef_of_past {text : List Byte} {d : Dev} (h : d.Aligned) (hne : text ≠ [])
    (hpast : ∀ c, d.cur = some c → d.w.val + 1 < c.col + text.length) :
    (text.foldl (fun d b => d.byteSent 1 b) d).undef = true := by
  induction text generalizing d with
  | nil => exact absurd rfl hne
  | cons b bs ih =>
    rw [List.foldl_cons]
    by_cases hcol : ∃ c, d.cur = some c ∧ 1 ≤ c.col ∧ c.col ≤ d.w.val
    · obtain ⟨c, hc, hrange⟩ := hcol
      have hlong := hpast c hc
      rw [List.length_cons] at hlong
      have hsent := Dev.byteSent_char_of_column h hc hrange b
      have haligned : (d.byteSent 1 b).Aligned := by rw [hsent]; exact ⟨h.if4, h.ph, rfl, h.en⟩
      have hcur : (d.byteSent 1 b).cur = if d.inc then some ⟨c.row, c.col + 1⟩ else none := by rw [hsent]
      refine ih haligned (by rintro rfl; rw [List.length_nil] at hlong; omega) fun c' hc' => ?_
      obtain ⟨-, hmoved⟩ := Option.ite_none_right_eq_some.mp (hcur.symm.trans hc')
      cases hmoved
      rw [Dev.byteSent_w]
      simp only
      omega
    · exact Dev.textSent_undef (Dev.byteSent_char_of_no_column h (fun c hc hrange => hcol ⟨c, hc, hrange⟩) b)

end Sys2Proof.Machine

namespace Sys2Proof.Claims

open Sys2Proof.Machine

/-- Settles O36, character by character (`Dev.textSent_undef_of_past`). -/
theorem strPastRowEndIsUndefined : Obligations.StrPastRowEndIsUndefined := by
  intro s text hms haligned _ hne hcur
  refine ⟨_, rfl, ?_⟩
  rw [afterStr_dev hms]
  refine Dev.textSent_undef_of_past haligned hne fun c hc => ?_
  obtain hnone | ⟨c', hc', hpast⟩ := hcur
  · cases hnone.symm.trans hc
  · cases hc'.symm.trans hc
    exact hpast

end Sys2Proof.Claims
end

section
/-! PROOFS of the hazards family: the least time of each operation. -/

namespace Sys2Proof.Claims

open Sys2Proof.Machine

/-! ## The delays of an event list -/

theorem timeUnits_append (es fs : List Event) : timeUnits (es ++ fs) = timeUnits es + timeUnits fs := by
  induction es with
  | nil => exact (Nat.zero_add _).symm
  | cons e es ih => cases e <;> simp [timeUnits, ih, Nat.add_assoc]

theorem secondsOf_append (es fs : List Event) : secondsOf (es ++ fs) = secondsOf es + secondsOf fs := by
  induction es with
  | nil => exact (Nat.zero_add _).symm
  | cons e es ih => cases e <;> simp [secondsOf, ih, Nat.add_assoc]

/-- The delays of the events sum to these time units and these seconds (R135, R313). -/
structure Lasts (units secs : Nat) (evs : List Event) : Prop where
  units : timeUnits evs = units
  secs : secondsOf evs = secs

theorem Lasts.append {units units' secs secs' : Nat} {es fs : List Event} (h : Lasts units secs es)
    (h' : Lasts units' secs' fs) : Lasts (units + units') (secs + secs') (es ++ fs) where
  units := by rw [timeUnits_append, h.units, h'.units]
  secs := by rw [secondsOf_append, h.secs, h'.secs]

/-! ## The delays of a request -/

/-- Two pulses held for 1 time unit each, and the settle delay of 2 (R132). -/
theorem lasts_sendByte (m : Bit) (b : Byte) : Lasts 4 0 (eventsOf (sendByteActions m b)) := ⟨rfl, rfl⟩

theorem lasts_cur (w : Width) (row col : Byte) : Lasts 4 0 (eventsOf (curActions w row col)) := by
  unfold curActions
  split <;> exact lasts_sendByte 0 (cursorByte row col)

theorem lasts_str (text : List Byte) : Lasts (4 * text.length) 0 (eventsOf (strActions text)) := by
  induction text with
  | nil => exact ⟨rfl, rfl⟩
  | cons b bs ih =>
    have hsplit : strActions (b :: bs) = sendByteActions 1 b ++ strActions bs := rfl
    rw [hsplit, eventsOf_append, List.length_cons, Nat.mul_succ, Nat.add_comm]
    exact (lasts_sendByte 1 b).append ih

theorem alarmStarts_iff {trig v : Bit} : alarmStarts trig v = true ↔ v = 1 ∧ trig = 0 := by simp [alarmStarts]

/-- The buzzer's 5 seconds, at the transition from `Idle` to `Triggered` alone (R222). -/
theorem lasts_alm (v trig : Bit) : Lasts 0 (leastSecs trig (.alm v)) (eventsOf (almActions v trig)) := by
  simp only [almActions, leastSecs, alarmStarts_iff]
  split_ifs <;> exact ⟨rfl, rfl⟩

/-- The delays of each request are those of its row of the table (R313). -/
theorem lasts_of_requestActions {i : Instr} {trig : Bit} {w : Width} {as : List Action}
    (h : requestActions i trig w = some as) : Lasts (leastUnits w i) (leastSecs trig i) (eventsOf as) := by
  cases i <;> cases h
  case init => exact ⟨rfl, rfl⟩
  case cmd b => exact lasts_sendByte 0 b
  case chr b => exact lasts_sendByte 1 b
  case cur row col => exact lasts_cur w row col
  case str text => exact lasts_str text
  case alm v => exact lasts_alm v trig
  case dly u k => cases u <;> exact ⟨rfl, rfl⟩

/-! ## The delays between two states -/

/-- From `s` to `t` the trace grows by events whose delays sum to these time units and these seconds. -/
def Takes (units secs : Nat) (s t : State) : Prop := ∃ evs, t.tr = s.tr ++ evs ∧ Lasts units secs evs

theorem Takes.trans {units units' secs secs' : Nat} {s t u : State} (h : Takes units secs s t)
    (h' : Takes units' secs' t u) : Takes (units + units') (secs + secs') s u := by
  obtain ⟨es, hes, hlasts⟩ := h
  obtain ⟨fs, hfs, hlasts'⟩ := h'
  exact ⟨es ++ fs, by rw [hfs, hes, List.append_assoc], hlasts.append hlasts'⟩

theorem takes_of_tr_eq {s t : State} (h : t.tr = s.tr) : Takes 0 0 s t :=
  ⟨[], by rw [h, List.append_nil], rfl, rfl⟩

theorem runActions_takes {units secs : Nat} {as : List Action} (h : Lasts units secs (eventsOf as)) (s : State) :
    Takes units secs s (runActions as s) := ⟨_, runActions_tr as s, h⟩

theorem perform_takes {s : State} (hms : s.ms = 0) {units secs : Nat} {as : List Action}
    (h : Lasts units secs (eventsOf as)) (n : Nat) : Takes units secs s (perform n as s) := by
  rw [perform_of_ms hms]
  exact runActions_takes h s

theorem exec_request_takes {i : Instr} (hi : i.format = .req) {s : State} (hms : s.ms = 0) :
    ∃ t, exec i s = .next t ∧ Takes (leastUnits s.dev.w i) (leastSecs s.trig i) s t := by
  obtain ⟨as, has⟩ := requestActions_of_format hi s.trig s.dev.w
  exact ⟨_, exec_of_requestActions has, perform_takes hms (lasts_of_requestActions has) _⟩

/-! ## The delays of `MON` -/

theorem afterPrint_takes {s : State} (hms : s.ms = 0) (row : Row) (text : List Byte) :
    Takes (4 + 4 * text.length) 0 s (afterPrint row text s) :=
  (perform_takes hms (lasts_cur ..) 3).trans (perform_takes (perform_ms ..) (lasts_str text) _)

/-- The texts take all the time units of `MON`, for three cursor bytes and the characters (R313). -/
theorem afterTexts_takes {s : State} (hms : s.ms = 0) (r : BitVec 10) :
    Takes (leastUnits s.dev.w (.mon r)) 0 s (afterTexts r s) := by
  have htexts := ((afterPrint_takes hms .row1 (status s.dev.w r)).trans
    (afterPrint_takes (afterPrint_ms ..) .row2 (spaces s.dev.w.val))).trans
    (afterPrint_takes (afterPrint_ms ..) .row2 (value r))
  have hunits : leastUnits s.dev.w (.mon r) = 4 + 4 * (status s.dev.w r).length
      + (4 + 4 * (spaces s.dev.w.val).length) + (4 + 4 * (value r).length) := by
    rw [leastUnits, length_spaces]
    omega
  rw [hunits]
  exact htexts

theorem afterPrint_trig (row : Row) (text : List Byte) (s : State) : (afterPrint row text s).trig = s.trig := by
  obtain ⟨-, hcur⟩ := runActions_quiet (s := s) (quiet_resume s.ms (quiet_cur s.dev.w row.operand 1))
  obtain ⟨-, hstr⟩ := runActions_quiet (s := afterCur row.operand 1 s)
    (quiet_resume (afterCur row.operand 1 s).ms (quiet_str text))
  exact hstr.trans hcur

/-- The texts leave the latch as it was, so the alarm after them pulses by the latch before `MON` (R24). -/
theorem afterTexts_trig (r : BitVec 10) (s : State) : (afterTexts r s).trig = s.trig := by
  simp only [afterTexts, afterPrint_trig]

theorem afterAlarmAndPace_takes {s : State} (hms : s.ms = 0) (v : Bit) :
    Takes 0 (leastSecs s.trig (.alm v) + 1) s (afterAlarmAndPace v s) :=
  (perform_takes hms (lasts_alm v s.trig) 2).trans
    (perform_takes (as := dlyActions .seconds Config.PACE) (perform_ms ..) ⟨rfl, rfl⟩ 3)

theorem leastSecs_mon (trig : Bit) (r : BitVec 10) :
    leastSecs trig (.mon r) = leastSecs trig (.alm (overRaw r)) + 1 := by
  simp only [leastSecs]
  split_ifs <;> rfl

theorem exec_mon_takes {s : State} (hms : s.ms = 0) (r : BitVec 10) :
    ∃ t, exec (.mon r) s = .next t ∧ Takes (leastUnits s.dev.w (.mon r)) (leastSecs s.trig (.mon r)) s t := by
  have hpace := afterAlarmAndPace_takes (s := afterTexts r s) (perform_ms ..) (overRaw r)
  rw [afterTexts_trig, ← leastSecs_mon] at hpace
  have htakes := (afterTexts_takes hms r).trans hpace
  rw [Nat.zero_add] at htakes
  exact ⟨_, exec_mon r s, htakes⟩

/-! ## The table -/

/-- Every operation takes the time of its row of the table (R313). -/
theorem exec_takes (i : Instr) {s : State} (hms : s.ms = 0) :
    ∃ t, exec i s = .next t ∧ Takes (leastUnits s.dev.w i) (leastSecs s.trig i) s t := by
  cases i with
  | init | cmd _ | chr _ | cur _ _ | str _ | alm _ | dly _ _ => exact exec_request_takes rfl hms
  | mon r => exact exec_mon_takes hms r
  | dClear | d4bit | dAutoinc | dOnNocursor | d2line | dCursorRow1 _ | dCursorRow2 _ | dOther _ | dChar _ =>
    exact ⟨_, rfl, takes_of_tr_eq rfl⟩
  | pulse => exact ⟨_, rfl, runActions_takes (as := pulseActions) ⟨rfl, rfl⟩ s⟩
  | sendbyte m b => exact ⟨_, rfl, runActions_takes (lasts_sendByte m b) s⟩

/-- In the reference usage the status and the spaces are of 16 characters each (R245, R313). -/
theorem leastUnits_mon_W (r : BitVec 10) : leastUnits Config.W (.mon r) = 4 * (35 + (value r).length) := by
  have hcolumns : Config.W.val = 16 := rfl
  rw [leastUnits, length_status_W, hcolumns]

/-- Settles O52, row by row of the table (`exec_takes`); the value text has 12 to 14 characters. -/
theorem leastTimes : Obligations.LeastTimes := by
  refine ⟨fun i s hms => ?_, fun r => ?_⟩
  · obtain ⟨t, ht, evs, htr, hlasts⟩ := exec_takes i hms
    exact ⟨t, evs, ht, htr, hlasts.units, hlasts.secs⟩
  · have hmon := leastUnits_mon_W r
    obtain ⟨hshort, hlong⟩ := length_value r
    exact ⟨hmon, by omega, by omega⟩

end Sys2Proof.Claims
end
